-- ==== Sys2Proof/Word.lean ====
section
/-! DEFINITION. The byte type of the block and its arithmetic (00_scope.md R6, R7). -/

namespace Sys2Proof

/-- `u8`: an unsigned 8-bit value, bit 7 the most significant (R6). -/
abbrev Byte := BitVec 8

/-- `a +8 b`: the sum modulo 256 (R7). -/
def add8 (a b : Byte) : Byte := a + b

/-- `a -8 b`: the non-negative remainder of the difference modulo 256 (R7). -/
def sub8 (a b : Byte) : Byte := a - b

/-- `a ++ b`: the 16-bit value `a * 256 + b` (R6); used by the storage packing (R88) and by `fault_info` (R64). -/
def concat8 (a b : Byte) : BitVec 16 := a ++ b

/-- `zext_N` (R6; no rule of the spec uses it). -/
def zextN (n : Nat) (b : Byte) : BitVec n := b.setWidth n

/-- `sext_N` (R6; no rule of the spec uses it). -/
def sextN (n : Nat) (b : Byte) : BitVec n := b.signExtend n

end Sys2Proof
end

