-- ==== Sys2Proof/Config.lean ====
section
/-! DEFINITION. What the implementation fixes (00_scope.md R5), and the one free value of the model. -/

namespace Sys2Proof

/-- `TAPE_SIZE`: the number of tape cells (R5, R25). -/
def Config.tapeSize : Nat := 256

/-- `PSTORE_SIZE`: the number of program-store entries (R5, R26, D1). -/
def Config.pstoreSize : Nat := 256

/-- `MAX_PROG`: the most command bytes a program may have (R5, D15). Only `WF(P)` and the packer use it.
UNVERIFIED by the spec's source, safe: log entry 10. -/
def Config.maxProg : Nat := 252

/-- `TERM`: the terminator byte (R5). -/
def Config.term : Byte := 0x00#8

/-- `IC_RESET` (R5, R34; conflict C1). -/
def Config.icReset : Byte := 0xFF#8

/-- `DC_RESET` (R5, R34). -/
def Config.dcReset : Byte := 0x00#8

/-- Reset value of the hidden scan cursor (R29, R34, D12). -/
def Config.scReset : Byte := 0x00#8

/-- Cause code of IllegalInstruction (R201, D17). -/
def Config.causeIllegalInstruction : Nat := 1

/-- The two values of the parameter `SCAN_WRAP`: what a backward scan does after offset 0 (R5, D4, U3). -/
inductive ScanWrap where
  | cyclic
  | stuck
  deriving DecidableEq, Repr

/-- `SCAN_WRAP`; this machine takes the spec's value (R5, R153, D4). UNVERIFIED by the spec's source, unsafe: log entry 6. -/
def Config.scanWrap : ScanWrap := .cyclic

/-- FREE VALUE. The byte the host answers to the `n`-th request that no listed answer meets: "a draw that no law constrains"
(R67, D6, U4). It has no body: nothing can be proved of its value. DESIGN CHOICE, safe:
log entry 2. -/
opaque Config.inputByte : Nat → Byte

end Sys2Proof
end

