-- ==== Sys2Proof/Syntax.lean ====
section
/-! DEFINITION. The nine instructions of BC8-BF (00_scope.md R2, 30_encoding.md R81). -/

namespace Sys2Proof

/-- One constructor per row of the opcode table, in the source's dispatch order (R81, R83). No instruction has an operand
field or an immediate (R86), and there are no pseudo-instructions (R92). -/
inductive Instr where
  | incp  -- `>` R120
  | decp  -- `<` R121
  | inc   -- `+` R130
  | dec   -- `-` R131
  | out   -- `.` R140
  | inp   -- `,` R141 (the table's IN)
  | brz   -- `[` R150
  | brnz  -- `]` R151
  | halt  -- the terminator 0x00, R180
  deriving DecidableEq, Repr

/-- What a fetched byte is: one of the nine instructions, or Unknown (R82). -/
inductive Decoded where
  | known (i : Instr)
  | unknown (b : Byte)
  deriving DecidableEq, Repr

end Sys2Proof
end

