-- ==== Sys2Proof/WellFormed.lean ====
section
/-! DEFINITION. Which terms are well formed: instructions (all of them: none has an operand), and programs as the packer
accepts them (10_state.md R35, 30_encoding.md R91). -/

namespace Sys2Proof

/-- Every instruction is well formed: it has no operand to check (R86). -/
def wellFormedInstr (i : Instr) : Bool :=
  match i with
  | .incp => true
  | .decp => true
  | .inc => true
  | .dec => true
  | .out => true
  | .inp => true
  | .brz => true
  | .brnz => true
  | .halt => true

/-- The eight command bytes of R35 (a): the opcode bytes of R81 but for the terminator. -/
def isCommandByte (b : Byte) : Bool :=
  [0x3E#8, 0x3C#8, 0x2B#8, 0x2D#8, 0x2E#8, 0x2C#8, 0x5B#8, 0x5D#8].contains b

/-- The packer's two checks on the command bytes of a program: the length and the character set (R91). Bracket balance is
not checked (R35, R91). -/
def wellFormedProgram (cmds : List Byte) : Bool :=
  decide (cmds.length ≤ Config.maxProg) && cmds.all isCommandByte

end Sys2Proof
end

