-- ==== Sys2Proof/Decode.lean ====
section
/-! DEFINITION. The decoder, total on every byte (30_encoding.md R82), and after it the encoder. -/

namespace Sys2Proof

/-- The opcode map in the source's dispatch order (R81, R83). -/
def opcodeMap : List (Byte × Instr) :=
  [ (0x3E#8, .incp), (0x3C#8, .decp), (0x2B#8, .inc), (0x2D#8, .dec), (0x2E#8, .out), (0x2C#8, .inp),
    (0x5B#8, .brz), (0x5D#8, .brnz), (0x00#8, .halt) ]

/-- The first row whose byte equals `b`, all eight bits compared; Unknown where none does (R82, R83). -/
def decodeIn (rows : List (Byte × Instr)) (b : Byte) : Decoded :=
  match rows with
  | [] => .unknown b
  | row :: rest => if row.1 = b then .known row.2 else decodeIn rest b

/-- `decode` (R82): one of the nine instructions, or `Unknown(b)` for the other 247 bytes (R84). -/
def decode (b : Byte) : Decoded := decodeIn opcodeMap b

/-- The instruction a decoded byte is, if it is one. -/
def Decoded.instr? (d : Decoded) : Option Instr :=
  match d with
  | .known i => some i
  | .unknown _ => none

/-- What the decoder reads from an opcode-table word: an instruction is its first byte, bits 7 to 0 (R80). -/
def decodeTableWord (nbits w : Nat) : Option Instr :=
  (decode (BitVec.ofNat 8 (w % 2 ^ nbits))).instr?

/-- The byte of each instruction, written out from R81's column of bits. -/
def encode (i : Instr) : Byte :=
  match i with
  | .incp => 0b00111110#8
  | .decp => 0b00111100#8
  | .inc  => 0b00101011#8
  | .dec  => 0b00101101#8
  | .out  => 0b00101110#8
  | .inp  => 0b00101100#8
  | .brz  => 0b01011011#8
  | .brnz => 0b01011101#8
  | .halt => 0b00000000#8

end Sys2Proof
end

