-- ==== Sys2Proof/Machine/State.lean ====
section
/-! DEFINITION. The machine's state as plain data, why a step can stop, and the state after reset (10_state.md). -/

namespace Sys2Proof.Machine

/-- A 256-entry space of bytes as (offset, byte) pairs: offsets strictly rising, no entry equal to `unlistedByte`. The
tape (R25) and the program store (R26) are two separate ones (R50). -/
abbrev Memory := List Host.Cell

/-- What an unlisted offset reads as: `0x00`, for the tape because reset zeroes every cell (R34), for the program store
because it is zero-padded (R27, R51). A store in which nothing was ever loaded reads so too: DESIGN CHOICE, unsafe, log
entry 1. -/
def unlistedByte : Byte := 0x00#8

/-- The five values of `phase` (R28). -/
inductive Phase where
  | running
  | scanFwd
  | scanBwd
  | halted
  | faulted
  deriving DecidableEq, Repr

/-- The fault record of IllegalInstruction: the offset and the byte that were fetched (R31, R201). -/
structure FaultRecord where
  offset : Byte
  byte : Byte
  deriving DecidableEq, Repr

/-- What the host does at the `next` port once its listed answers are used up (R67, U4, U5): it answers each request with
a byte nothing constrains, or it does not answer. The model's own: DESIGN CHOICE, log entry 2. -/
inductive NextPort where
  | answering
  | silent
  deriving DecidableEq, Repr

/-- The first eight fields are the block's state, all of it (R20). The last four are the host's side of the ports (R64),
held here because a step is a function of the state; no rule of the spec counts them as the block's state (log entry 2). -/
structure State where
  /-- InstructionCursor, the program counter (R22). -/
  ic : Byte
  /-- DataCursor (R24). -/
  dc : Byte
  /-- Tape (R25). -/
  tape : Memory
  /-- Program store `P` (R26). -/
  pstore : Memory
  /-- Run state (R28). -/
  phase : Phase
  /-- Hidden scan cursor (R29). -/
  sc : Byte
  /-- Output trace, oldest first (R30). -/
  out : List Byte
  /-- Fault record (R31). -/
  fault : Option FaultRecord
  /-- Level of the `rst` pin (R64, R230). -/
  rst : Bool
  /-- What the host does when `answers` is empty. -/
  nextPort : NextPort
  /-- Bytes the host has answered that no `,` has taken, oldest first (R64, R67). -/
  answers : List Byte
  /-- How many free input bytes have been drawn. -/
  draws : Nat
  deriving DecidableEq, Repr

/-- Why `step` has no next state. Each is a state with NO STEP, in which nothing changes; none is the spec's
IllegalInstruction, which is a next state in phase FAULTED (R201). DESIGN CHOICE, safe: log entry 3. -/
inductive Fault where
  /-- Raised by `step` in phase HALTED, which has no outgoing transition (R181). Safe. -/
  | halted
  /-- Raised by `step` in phase FAULTED, which has no step (R201, R204). Safe. -/
  | faulted
  /-- Raised by IN (and so by `step`) while the host has not answered: stuck, not halted and not faulted (R67, R141). Safe. -/
  | awaitingInput
  /-- Raised by `step` while `rst` is asserted: the block makes no step (R230). Safe. -/
  | heldInReset
  /-- Raised by a backward scan that moves from offset 0 to 255, only under `SCAN_WRAP = stuck`, which this machine does not
  take (D4, log entry 6). Safe. -/
  | scanStuck
  deriving DecidableEq, Repr

/-- Why an instruction has no meaning here. -/
inductive Refusal where
  /-- Raised by `exec` for an instruction not modelled yet, by its mnemonic; no arm does so now. Safe. -/
  | notModelled (mnemonic : String)
  deriving DecidableEq, Repr

/-- The machine right after `rst` is released (R34, R230). The spec gives the first eight fields but `pstore`, which reset
leaves as the host loaded it: here nothing is loaded (DESIGN CHOICE, unsafe: log entry 1). The host's side: DESIGN CHOICE, log entries 2 and 5. -/
def State.reset : State where
  ic := Config.icReset
  dc := Config.dcReset
  tape := []
  pstore := []
  phase := .running
  sc := Config.scReset
  out := []
  fault := none
  rst := false
  nextPort := .answering
  answers := []
  draws := 0

end Sys2Proof.Machine
end

