-- ==== Sys2Proof/Machine/Ops.lean ====
section
/-! DEFINITION. The named operations over memory, cursors and hooks, the fetch, and raising IllegalInstruction, which has
no return (60_exceptions.md R204). -/

namespace Sys2Proof.Machine

/-- The canonical form: offsets strictly rising and below 256, no entry equal to what an unlisted offset reads as. -/
abbrev Memory.wf (m : Memory) : Prop :=
  m.Pairwise (fun c d => c.1 < d.1) ∧ ∀ c ∈ m, c.1 < 256 ∧ c.2 ≠ unlistedByte

/-- The byte at offset `a`. -/
def Memory.read (m : Memory) (a : Nat) : Byte :=
  match m with
  | [] => unlistedByte
  | c :: rest => if c.1 = a then c.2 else Memory.read rest a

/-- Puts a listed entry in its place. -/
def Memory.insert (m : Memory) (a : Nat) (v : Byte) : Memory :=
  match m with
  | [] => [(a, v)]
  | c :: rest => if a < c.1 then (a, v) :: c :: rest else c :: Memory.insert rest a v

/-- Takes the entries of offset `a` away. -/
def Memory.erase (m : Memory) (a : Nat) : Memory := m.filter (fun c => c.1 != a)

/-- Sets the byte at offset `a`; a byte equal to what an unlisted offset reads as is not listed. -/
def Memory.write (m : Memory) (a : Nat) (v : Byte) : Memory :=
  if v = unlistedByte then Memory.erase m a else Memory.insert (Memory.erase m a) a v

/-- The bytes of an image, the first at offset `a`. -/
def Memory.ofBytesFrom (a : Nat) (bs : List Byte) : Memory :=
  match bs with
  | [] => []
  | b :: rest =>
    if b = unlistedByte then Memory.ofBytesFrom (a + 1) rest else (a, b) :: Memory.ofBytesFrom (a + 1) rest

/-- A program store holding an image, `0x00` past its end (R27). Bytes past offset 255 have no place (R26). -/
def Memory.ofBytes (bs : List Byte) : Memory := Memory.ofBytesFrom 0 (bs.take Config.pstoreSize)

/-! The five cursor primitives (R37). -/

/-- `get`. -/
def Cursor.get (c : Byte) : Byte := c
/-- `increment`: `c +8 1`. -/
def Cursor.increment (c : Byte) : Byte := add8 c 1#8
/-- `decrement`: `c -8 1`. -/
def Cursor.decrement (c : Byte) : Byte := sub8 c 1#8
/-- `set(v)`. -/
def Cursor.set (_c v : Byte) : Byte := v
/-- `add(d)`: `c +8 d`. -/
def Cursor.add (c d : Byte) : Byte := add8 c d

/-! One update per field: `x <- v` (R8). -/

/-- `ic <- v`. -/
def State.setIc (s : State) (v : Byte) : State := { s with ic := v }
/-- `dc <- v`. -/
def State.setDc (s : State) (v : Byte) : State := { s with dc := v }
/-- `Tape <- m`. -/
def State.setTape (s : State) (m : Memory) : State := { s with tape := m }
/-- `P <- m`, the host's alone (R26). -/
def State.setPstore (s : State) (m : Memory) : State := { s with pstore := m }
/-- `phase <- p`. -/
def State.setPhase (s : State) (p : Phase) : State := { s with phase := p }
/-- `sc <- v`. -/
def State.setSc (s : State) (v : Byte) : State := { s with sc := v }
/-- `out <- o`. -/
def State.setOut (s : State) (o : List Byte) : State := { s with out := o }
/-- `fault <- f`. -/
def State.setFault (s : State) (f : Option FaultRecord) : State := { s with fault := f }
/-- The level of the reset pin. -/
def State.setRst (s : State) (b : Bool) : State := { s with rst := b }
/-- What the host does once its listed answers are used up. -/
def State.setNextPort (s : State) (p : NextPort) : State := { s with nextPort := p }
/-- The answers no `,` has taken. -/
def State.setAnswers (s : State) (l : List Byte) : State := { s with answers := l }
/-- The count of free bytes drawn. -/
def State.setDraws (s : State) (n : Nat) : State := { s with draws := n }

/-! Memory primitives (R9): total for every offset (R51, R52), one byte wide (R55). -/

/-- `FetchByte(a)`: `P[a]` (R9, R51). -/
def fetchByte (s : State) (a : Byte) : Byte := Memory.read s.pstore a.toNat

/-- `MemRead(a, 1)`: `Tape[a]` (R9, R52). -/
def memRead (s : State) (a : Byte) : Byte := Memory.read s.tape a.toNat

/-- `MemWrite(a, 1, v)`: `Tape[a] <- v` (R9, R52). -/
def memWrite (s : State) (a v : Byte) : State := s.setTape (Memory.write s.tape a.toNat v)

/-! The I/O hooks (R10). -/

/-- `Emit(v)`: appends `v` to the trace; never fails, never waits (R66; log entry 9). -/
def emit (s : State) (v : Byte) : State := s.setOut (s.out ++ [v])

/-- The byte the host answers to a request now, if it answers (R67): the oldest listed answer; with none listed, the
free value of an answering host, nothing of a silent one. DESIGN CHOICE: log
entry 2. -/
def hostByte (s : State) : Option Byte :=
  match s.answers, s.nextPort with
  | v :: _, _ => some v
  | [], .answering => some (Config.inputByte s.draws)
  | [], .silent => none

/-- The host's side after one answer has been taken: "`Input` consumes one answer from the host" (R56). A listed answer is
gone from the list; a free byte counts as drawn. -/
def takeHostByte (s : State) : State :=
  (s.setAnswers s.answers.tail).setDraws (if s.answers = [] then s.draws + 1 else s.draws)

/-! Fetch and fault. -/

/-- The fetch's advance: `ic <- ic +8 1` (R100). -/
def fetch (s : State) : State := s.setIc (Cursor.increment s.ic)

/-- `raise IllegalInstruction(offset = ic, byte = b)` (R11, R106, R201): taking the block's one exception. It saves the
record and stops in FAULTED; no vector, no handler, no mode change (R203), and no return but reset (R204). -/
def raiseIllegalInstruction (s : State) (b : Byte) : State :=
  (s.setFault (some ⟨s.ic, b⟩)).setPhase .faulted

/-- Puts byte `b` where the next RUNNING fetch reads, with the block in RUNNING and `rst` released, so that the next step
fetches and runs it. DESIGN CHOICE, safe: log entry 4. -/
def placeNextByte (s : State) (b : Byte) : State :=
  ((s.setPstore (Memory.write s.pstore (Cursor.increment s.ic).toNat b)).setPhase .running).setRst false

end Sys2Proof.Machine
end

