-- ==== Sys2Proof/Machine/Operands.lean ====
section
/-! DEFINITION. The block's one operand form: the cell `Tape[dc]`, implicit in the opcode (30_encoding.md R86,
20_memory.md R52). `dc` and `ic`, the other implicit operands, are fields of the state. -/

namespace Sys2Proof.Machine

/-- The current cell, `Tape[dc]`. -/
def cell (s : State) : Byte := memRead s s.dc

/-- `Tape[dc] <- v`. -/
def setCell (s : State) (v : Byte) : State := memWrite s s.dc v

end Sys2Proof.Machine
end

