-- ==== Sys2Proof/Machine/CellArith.lean ====
section
/-! DEFINITION. Cell arithmetic: `+` and `-` (42_cell.md). The read and the write are in one step (R55, R130). -/

namespace Sys2Proof.Machine

/-- INC, `+` (R130): `Tape[dc] <- Tape[dc] +8 1`; the carry is recorded nowhere. -/
def execInc (s : State) : Host.Outcome State Fault Refusal := .next (setCell s (add8 (cell s) 1#8))

/-- DEC, `-` (R131): `Tape[dc] <- Tape[dc] -8 1`; the borrow is recorded nowhere. -/
def execDec (s : State) : Host.Outcome State Fault Refusal := .next (setCell s (sub8 (cell s) 1#8))

end Sys2Proof.Machine
end

