-- ==== Sys2Proof/Machine/Halt.lean ====
section
/-! DEFINITION. The terminator (45_halt.md). -/

namespace Sys2Proof.Machine

/-- HALT, the terminator `0x00` (R180): `phase <- HALTED`; `ic` keeps the terminator's offset. -/
def execHalt (s : State) : Host.Outcome State Fault Refusal := .next (s.setPhase .halted)

end Sys2Proof.Machine
end

