-- ==== Sys2Proof/Machine/InOut.lean ====
section
/-! DEFINITION. Input and output: `.` and `,` (43_io.md), through the two hooks (20_memory.md R66, R67). -/

namespace Sys2Proof.Machine

/-- OUT, `.` (R140): emits the current cell. -/
def execOut (s : State) : Host.Outcome State Fault Refusal := .next (emit s (cell s))

/-- IN, `,` (R141): writes the host's byte to the current cell. While the host has not answered the block has no step:
stuck, with the state, `ic` among it, as it was before the fetch. -/
def execInp (s : State) : Host.Outcome State Fault Refusal :=
  match hostByte s with
  | some v => .next (setCell (takeHostByte s) v)
  | none => .fault .awaitingInput

end Sys2Proof.Machine
end

