-- ==== Sys2Proof/Machine/Flags.lean ====
section
/-! DEFINITION. The block has no flags and no condition codes (10_state.md R32). What stands in their place is the test of
the current cell that `[` and `]` make when they execute, and which nothing stores. -/

namespace Sys2Proof.Machine

/-- Whether `Tape[dc] = 0` (R32, R150, R151). -/
def cellIsZero (s : State) : Bool := cell s == 0x00#8

end Sys2Proof.Machine
end

