-- ==== Sys2Proof/Machine/Loop.lean ====
section
/-! DEFINITION. Loops and the Loop Resolver: `[`, `]` and the two scans (44_loop.md). -/

namespace Sys2Proof.Machine

/-- BRZ, `[` (R150): a zero cell starts a forward scan at the offset of this `[`; otherwise nothing. -/
def execBrz (s : State) : Host.Outcome State Fault Refusal :=
  if cellIsZero s then .next ((s.setSc s.ic).setPhase .scanFwd) else .next s

/-- BRNZ, `]` (R151): a non-zero cell starts a backward scan at the offset of this `]`; otherwise nothing. -/
def execBrnz (s : State) : Host.Outcome State Fault Refusal :=
  if cellIsZero s then .next s else .next ((s.setSc s.ic).setPhase .scanBwd)

/-- The end of a scan step: the byte at `sc` is compared with the bracket looked for, and with nothing else (R152, R153,
R154); on a match `ic <- sc` and the block runs again. -/
def scanCompare (s : State) (bracket : Byte) : State :=
  if fetchByte s s.sc = bracket then (s.setIc (Cursor.set s.ic s.sc)).setPhase .running else s

/-- One forward-scan step (R152); it wraps from 255 to 0 (D4). -/
def scanFwdStep (s : State) : State := scanCompare (s.setSc (Cursor.increment s.sc)) 0x5D#8

/-- One backward-scan step under a given `SCAN_WRAP` (R153, D4, U3). -/
def scanBwdStepWith (w : ScanWrap) (s : State) : Host.Outcome State Fault Refusal :=
  match w with
  | .cyclic => .next (scanCompare (s.setSc (Cursor.decrement s.sc)) 0x5B#8)
  | .stuck =>
    if s.sc = 0x00#8 then .fault .scanStuck
    else .next (scanCompare (s.setSc (Cursor.decrement s.sc)) 0x5B#8)

/-- One backward-scan step of this machine (R153): `SCAN_WRAP = cyclic`. -/
def scanBwdStep (s : State) : Host.Outcome State Fault Refusal := scanBwdStepWith Config.scanWrap s

end Sys2Proof.Machine
end

