-- ==== Sys2Proof/Machine/Pointer.lean ====
section
/-! DEFINITION. Data-cursor movement: `>` and `<` (41_pointer.md). Each runs after the fetch of R100. -/

namespace Sys2Proof.Machine

/-- INCP, `>` (R120): `dc <- dc +8 1`. -/
def execIncp (s : State) : Host.Outcome State Fault Refusal := .next (s.setDc (Cursor.increment s.dc))

/-- DECP, `<` (R121): `dc <- dc -8 1`. -/
def execDecp (s : State) : Host.Outcome State Fault Refusal := .next (s.setDc (Cursor.decrement s.dc))

end Sys2Proof.Machine
end

