-- ==== Sys2Proof/Machine/Dispatch.lean ====
section
/-! DEFINITION. The dispatch of one decoded instruction to its handler (40_dispatch.md R101). -/

namespace Sys2Proof.Machine

/-- The handler of the decoded instruction; it sees `ic` as the fetch wrote it (R101, R105). -/
def exec (i : Instr) (s : State) : Host.Outcome State Fault Refusal :=
  match i with
  | .incp => Sys2Proof.Machine.execIncp s
  | .decp => Sys2Proof.Machine.execDecp s
  | .inc => Sys2Proof.Machine.execInc s
  | .dec => Sys2Proof.Machine.execDec s
  | .out => Sys2Proof.Machine.execOut s
  | .inp => Sys2Proof.Machine.execInp s
  | .brz => Sys2Proof.Machine.execBrz s
  | .brnz => Sys2Proof.Machine.execBrnz s
  | .halt => Sys2Proof.Machine.execHalt s

end Sys2Proof.Machine
end

