-- ==== Sys2Proof/Machine/Step.lean ====
section
/-! DEFINITION. One step of the block in every phase (40_dispatch.md R103). -/

namespace Sys2Proof.Machine

/-- A RUNNING step: fetch, decode, handler, indivisibly (R12, R100, R101); an unknown byte raises IllegalInstruction (R106). -/
def runningStep (s : State) : Host.Outcome State Fault Refusal :=
  match decode (fetchByte (fetch s) (fetch s).ic) with
  | .known i => exec i (fetch s)
  | .unknown b => .next (raiseIllegalInstruction (fetch s) b)

/-- The block's step (R103), and none while `rst` is asserted (R230). -/
def step (s : State) : Host.Outcome State Fault Refusal :=
  if s.rst then .fault .heldInReset
  else
    match s.phase with
    | .running => runningStep s
    | .scanFwd => .next (scanFwdStep s)
    | .scanBwd => scanBwdStep s
    | .halted => .fault .halted
    | .faulted => .fault .faulted

/-- The state with an opcode-table word stored where the next step fetches: an instruction is one byte (R80), at
`P[ic +8 1]` (R100). -/
def State.withFetchWord (s : State) (nbits w : Nat) : State :=
  placeNextByte s (BitVec.ofNat 8 (w % 2 ^ nbits))

end Sys2Proof.Machine
end

