-- ==== Sys2Proof/Machine/HostPort.lean ====
section
/-! DEFINITION. The host's side of the block's ports (20_memory.md R64, R65): its moves, which fall between steps, and the
status outputs it reads. -/

namespace Sys2Proof.Machine

/-- What the host can do between two steps (R65). No move takes a byte of `emit`: the block never waits for that (R66). -/
inductive HostMove where
  /-- Asserts `rst` (R230); allowed at any time (D11). -/
  | assertRst
  /-- Releases `rst` (R230, R233). -/
  | releaseRst
  /-- Offers a program-store image on `load(P)`, its bytes from offset 0 (R64, D14). -/
  | load (image : List Byte)
  /-- Answers one request on `next` with any byte (R67). -/
  | answer (v : Byte)
  /-- Chooses what it does about requests no listed answer meets: answers them freely, or stays silent (R67). -/
  | setNext (p : NextPort)
  deriving DecidableEq, Repr

/-- Every element of the block's state at its reset value but `P`, which reset does not change (R34, R230, R232). The pin
and the host's side are left as they are. -/
def resetBlock (s : State) : State :=
  (((((((s.setIc Config.icReset).setDc Config.dcReset).setTape []).setPhase .running).setSc Config.scReset).setOut
    []).setFault none)

/-- The state after a host move. A load is accepted only while `rst` is asserted (R64), so that the host has no move that
changes `P` while the block runs (R234). What a load at another time does, and one of another length, is a DESIGN CHOICE:
log entry 8. -/
def hostMove (m : HostMove) (s : State) : State :=
  match m with
  | .assertRst => (resetBlock s).setRst true
  | .releaseRst => s.setRst false
  | .load image => if s.rst then s.setPstore (Memory.ofBytes image) else s
  | .answer v => s.setAnswers (s.answers ++ [v])
  | .setNext p => s.setNextPort p

/-- The output `halted` (R64): `phase = HALTED`. -/
def haltedOut (s : State) : Bool := s.phase == .halted

/-- The output `faulted` (R64): `phase = FAULTED`. Both outputs read 0 in the scan phases (D18). -/
def faultedOut (s : State) : Bool := s.phase == .faulted

/-- The output `fault_info` (R64): `ic ++ P[ic]`, the offset in the high byte. That it reads so outside FAULTED
too is a DESIGN CHOICE, unsafe: log entry 7. -/
def faultInfoOut (s : State) : BitVec 16 := concat8 s.ic (fetchByte s s.ic)

/-- The cause code of the fault the block has stopped on, if it has (R201). -/
def faultCause (s : State) : Option Nat :=
  if s.phase = .faulted then some Config.causeIllegalInstruction else none

end Sys2Proof.Machine
end

