-- ==== Sys2Proof/Machine/Image.lean ====
section
/-! DEFINITION. Program images: the storage packing in 16-bit units (30_encoding.md R88, R89), the program text (R90) and
the packer's contract at its interface (R91). The block itself fetches single bytes. -/

namespace Sys2Proof.Machine

/-- Two bytes share a unit, the earlier in the high byte; an odd last byte is followed by `0x00` padding (R88, R89). -/
def packUnits (bs : List Byte) : List (BitVec 16) :=
  match bs with
  | [] => []
  | [b] => [concat8 b 0x00#8]
  | b :: c :: rest => concat8 b c :: packUnits rest

/-- `P[2w] = unit_w[15:8]`, `P[2w+1] = unit_w[7:0]` (R88). -/
def unpackUnits (us : List (BitVec 16)) : List Byte :=
  match us with
  | [] => []
  | u :: rest => u.extractLsb' 8 8 :: u.extractLsb' 0 8 :: unpackUnits rest

/-- The command bytes of a program and its terminator (R89). -/
def programBytes (cmds : List Byte) : List Byte := cmds ++ [Config.term]

/-- The command byte of a text character (R81, R90); the text has no other characters. -/
def charByte (c : Char) : Option Byte :=
  if c = '>' then some 0x3E#8
  else if c = '<' then some 0x3C#8
  else if c = '+' then some 0x2B#8
  else if c = '-' then some 0x2D#8
  else if c = '.' then some 0x2E#8
  else if c = ',' then some 0x2C#8
  else if c = '[' then some 0x5B#8
  else if c = ']' then some 0x5D#8
  else none

/-- The command bytes of a program text, one per character (R90); none where a character is outside the alphabet. -/
def textBytes (text : List Char) : Option (List Byte) :=
  match text with
  | [] => some []
  | c :: rest =>
    match charByte c, textBytes rest with
    | some b, some bs => some (b :: bs)
    | _, _ => none

/-- The packer's interface (R91): the instruction stream with its sentinel, or a rejection where the character set or the
length is violated. -/
def packText (text : List Char) : Option (List Byte) :=
  match textBytes text with
  | some bs => if bs.length ≤ Config.maxProg then some (programBytes bs) else none
  | none => none

end Sys2Proof.Machine
end

