-- ==== Sys2Proof/Safety.lean ====
section
/-! DEFINITION. What claims speak of: the end of a run, the invariants of the block, well-formed and balanced stores, and
where a scan lands. -/

namespace Sys2Proof.Safety

open Sys2Proof.Machine

/-- A run of `n` steps, ended early where a step has no next state: the host's own `Host.Core.run`, at this machine. -/
def run (n : Nat) (s : State) : Host.Outcome State Fault Refusal :=
  match n with
  | 0 => .next s
  | k + 1 =>
    match step s with
    | .next t => run k t
    | .fault r => .fault r
    | .refused r => .refused r

/-- A run ends exactly when `phase = HALTED` (R182). -/
abbrev Ended (s : State) : Prop := s.phase = .halted

/-- The result of a run that has ended, `(Tape, dc, ic, out)`, the tape as what each cell reads (R182). -/
def runResult (s : State) : (Byte → Byte) × Byte × Byte × List Byte := (memRead s, s.dc, s.ic, s.out)

/-- The next step of `s` is a RUNNING step that fetches the byte `b` (R100, R103). -/
abbrev Fetches (s : State) (b : Byte) : Prop :=
  s.rst = false ∧ s.phase = .running ∧ fetchByte s (s.ic + 1#8) = b

/-- The bytes that the `,` steps of a run of `n` steps take from the host, oldest first (R56, R67). -/
def bytesTaken (n : Nat) (s : State) : List Byte :=
  match n with
  | 0 => []
  | k + 1 =>
    match step s with
    | .next t => (if Fetches s 0x2C#8 then (hostByte s).toList else []) ++ bytesTaken k t
    | .fault _ => []
    | .refused _ => []

/-- The current cell of `t` is the one at `d` and holds `v`, and whichever instruction with an operand the next step executes
uses that `dc` and that byte: R235's readers, and the two cursor moves. -/
def NextUses (t : State) (d v : Byte) : Prop :=
  t.dc = d ∧ memRead t d = v ∧
    (Fetches t 0x2B#8 → ∃ u, step t = .next u ∧ memRead u d = v + 1#8 ∧ ∀ a, a ≠ d → memRead u a = memRead t a) ∧
    (Fetches t 0x2D#8 → ∃ u, step t = .next u ∧ memRead u d = v - 1#8 ∧ ∀ a, a ≠ d → memRead u a = memRead t a) ∧
    (Fetches t 0x2E#8 → ∃ u, step t = .next u ∧ u.out = t.out ++ [v]) ∧
    (∀ w, Fetches t 0x2C#8 → hostByte t = some w →
      ∃ u, step t = .next u ∧ memRead u d = w ∧ ∀ a, a ≠ d → memRead u a = memRead t a) ∧
    (Fetches t 0x5B#8 → ∃ u, step t = .next u ∧ (u.phase = .scanFwd ↔ v = 0x00#8)) ∧
    (Fetches t 0x5D#8 → ∃ u, step t = .next u ∧ (u.phase = .scanBwd ↔ v ≠ 0x00#8)) ∧
    (Fetches t 0x3E#8 → ∃ u, step t = .next u ∧ u.dc = d + 1#8) ∧
    (Fetches t 0x3C#8 → ∃ u, step t = .next u ∧ u.dc = d - 1#8)

/-- The fault record is empty but in FAULTED, where it holds `ic` and `P[ic]` (R31). -/
abbrev RecordInv (s : State) : Prop :=
  if s.phase = .faulted then s.fault = some ⟨s.ic, fetchByte s s.ic⟩ else s.fault = none

/-- The block's invariant: both spaces in canonical form, the fault record as R31 says. -/
abbrev Inv (s : State) : Prop := Memory.wf s.tape ∧ Memory.wf s.pstore ∧ RecordInv s

/-- Every element of the block's state but `P` is at the value R34 gives it. -/
def AtReset (s : State) : Prop :=
  (∀ a : Byte, memRead s a = 0x00#8) ∧ s.dc = 0x00#8 ∧ s.ic = 0xFF#8 ∧ s.phase = .running ∧ s.sc = 0x00#8 ∧
    s.out = [] ∧ s.fault = none

/-- While `rst` is asserted the state is held at the reset values (R230). -/
def HeldInv (s : State) : Prop := s.rst = true → AtReset s

/-- `WF(P)` with `n` command bytes (R35): `n <= MAX_PROG`, command bytes below offset `n`, `0x00` from `n` to 255. -/
abbrev StoreWF (n : Nat) (P : Memory) : Prop :=
  n ≤ Config.maxProg ∧
    ∀ a, a < 256 → if a < n then isCommandByte (Memory.read P a) = true else Memory.read P a = 0x00#8

/-- What a run over a well-formed store keeps (R36): never FAULTED, and in RUNNING the next fetch is at most at `n`. -/
abbrev WfInv (n : Nat) (s : State) : Prop :=
  StoreWF n s.pstore ∧ s.phase ≠ .faulted ∧ (s.phase = .running → (s.ic + 1#8).toNat ≤ n)

/-- The store's bytes at offsets `a` to `a + len - 1`. -/
def storeBytes (P : Memory) (a len : Nat) : List Byte := (List.range' a len).map (Memory.read P)

/-- The bracket depth after the bytes, started at `d`; none where a `]` closes nothing. -/
def bracketDepth (d : Nat) (bs : List Byte) : Option Nat :=
  match bs with
  | [] => some d
  | b :: rest =>
    if b = 0x5B#8 then bracketDepth (d + 1) rest
    else if b = 0x5D#8 then
      match d with
      | 0 => none
      | e + 1 => bracketDepth e rest
    else bracketDepth d rest

/-- A balanced bracket string (R158). -/
abbrev BracketBalanced (bs : List Byte) : Prop := bracketDepth 0 bs = some 0

/-- The `[` at `k` and the `]` at `j` are depth-matched partners (R159): what stands between them is balanced. -/
abbrev Partners (P : Memory) (k j : Nat) : Prop :=
  k < j ∧ Memory.read P k = 0x5B#8 ∧ Memory.read P j = 0x5D#8 ∧ BracketBalanced (storeBytes P (k + 1) (j - k - 1))

/-- No bracket byte stands strictly between the offsets `k` and `j`. -/
abbrev BracketFree (P : Memory) (k j : Nat) : Prop :=
  ∀ i, i < j → k < i → Memory.read P i ≠ 0x5B#8 ∧ Memory.read P i ≠ 0x5D#8

/-- From `s`, which executes a bracket, `t` is the first later state in RUNNING: where the scan the bracket started stops. -/
def ScanLands (s t : State) : Prop :=
  ∃ d, 0 < d ∧ run (d + 1) s = .next t ∧ t.phase = .running ∧
    ∀ m, 0 < m → m ≤ d → ∃ u, run m s = .next u ∧ u.phase ≠ .running

/-- Two states that agree on all but the scan cursor, and on that too where a scan is in progress (R29). -/
def SameButIdleSc (s t : State) : Prop :=
  t = { s with sc := t.sc } ∧ ((s.phase = .scanFwd ∨ s.phase = .scanBwd) → t.sc = s.sc)

end Sys2Proof.Safety
end

