-- ==== Sys2Proof/Certificates/Slice0/Obligations.lean ====
section
/-! DEFINITION. The statements about the model, each from a rule or a section of the spec. -/

open Sys2Proof Sys2Proof.Machine Sys2Proof.Safety

/-! ## Reset, boot and the host's ports -/

/-- R34: reset gives every state element its value and leaves `P` as it was. -/
def Obligations.ResetGivesSpecValues : Prop :=
  AtReset State.reset ∧
    ∀ s : State, AtReset (hostMove .assertRst s) ∧ (hostMove .assertRst s).pstore = s.pstore

/-- R230: while `rst` is asserted the block makes no step and is held at its reset values; released, it steps from there. -/
def Obligations.RstHoldsBlockAtResetValues : Prop :=
  (∀ s : State, s.rst = true → step s = .fault .heldInReset) ∧
    (∀ s : State, (hostMove .assertRst s).rst = true ∧ AtReset (hostMove .assertRst s)) ∧
    (∀ (m : HostMove) (s : State), HeldInv s → HeldInv (hostMove m s)) ∧
    (∀ s t : State, HeldInv s → step s = .next t → HeldInv t) ∧
    (∀ s : State, HeldInv s → s.rst = true →
      AtReset (hostMove .releaseRst s) ∧ (hostMove .releaseRst s).rst = false ∧
        step (hostMove .releaseRst s) = runningStep (hostMove .releaseRst s))

/-- R231: the first step after reset is a RUNNING step whose fetch reads program offset 0. -/
def Obligations.FirstFetchReadsOffsetZero : Prop :=
  ∀ s : State, AtReset s → s.rst = false →
    (∀ i, decode (fetchByte s 0x00#8) = .known i → step s = exec i { s with ic := 0x00#8 }) ∧
      (∀ b, decode (fetchByte s 0x00#8) = .unknown b →
        step s = .next { s with ic := 0x00#8, fault := some ⟨0x00#8, b⟩, phase := .faulted })

/-- R232: reset does not change the store, and is the only event that leaves HALTED or FAULTED. -/
def Obligations.OnlyResetLeavesHaltedOrFaulted : Prop :=
  (∀ s : State, (hostMove .assertRst s).pstore = s.pstore) ∧
    ∀ s : State, s.phase = .halted ∨ s.phase = .faulted →
      (∀ t, step s ≠ .next t) ∧ (∀ m, m ≠ .assertRst → (hostMove m s).phase = s.phase) ∧
        (hostMove .assertRst s).phase = .running

/-- 70_reset_and_hazards.md section 2: asserting `rst`, loading an image and releasing `rst` leaves the reset values, the image
in the store and the pin released. The port carries 256 bytes (R64). For a list of another length it is the model's DESIGN
CHOICE (log entry 8), no rule of the spec, that offsets past its end hold `0x00` and that bytes past 256 are dropped. -/
def Obligations.BootLoadsImageAndResets : Prop :=
  ∀ (s : State) (image : List Byte),
    let t := hostMove .releaseRst (hostMove (.load image) (hostMove .assertRst s))
    AtReset t ∧ t.rst = false ∧ ∀ a : Byte, fetchByte t a = image.getD a.toNat 0x00#8

/-- R234, R236: the store is written neither by any run of steps nor by any host move while `rst` is released. -/
def Obligations.StoreUnchangedWhileRunning : Prop :=
  (∀ (n : Nat) (s t : State), run n s = .next t → t.pstore = s.pstore) ∧
    ∀ (m : HostMove) (s : State), s.rst = false → (hostMove m s).pstore = s.pstore

/-- The status outputs (R64): what each reads, and that in FAULTED `fault_info` is the fault record, offset first. That
`fault_info` has a value outside FAULTED is the model's choice (log entry 7); nothing is claimed of it here. -/
def Obligations.StatusOutputsReflectPhase : Prop :=
  ∀ s : State,
    (haltedOut s = true ↔ s.phase = .halted) ∧ (faultedOut s = true ↔ s.phase = .faulted) ∧
      (∀ r, RecordInv s → s.phase = .faulted → s.fault = some r →
        (faultInfoOut s).toNat = r.offset.toNat * 256 + r.byte.toNat ∧ faultCause s = some 1)

/-! ## Fetch, decode and dispatch -/

/-- R100, R101: a RUNNING step advances `ic`, reads the byte there, and runs the handler of what it decodes to, or raises
IllegalInstruction (R106). Nothing else stands around `exec`. -/
def Obligations.StepRunsDecodedInstruction : Prop :=
  ∀ s : State, s.rst = false → s.phase = .running →
    (∀ i, decode (fetchByte s (s.ic + 1#8)) = .known i → step s = exec i { s with ic := s.ic + 1#8 }) ∧
      (∀ b, decode (fetchByte s (s.ic + 1#8)) = .unknown b →
        step s = .next (raiseIllegalInstruction { s with ic := s.ic + 1#8 } b))

/-- R82: decoding is total: the nine bytes of the opcode map to their instructions, every other byte to Unknown. -/
def Obligations.DecodeIsTheOpcodeTable : Prop :=
  decode 0b00111110#8 = .known .incp ∧ decode 0b00111100#8 = .known .decp ∧ decode 0b00101011#8 = .known .inc ∧
    decode 0b00101101#8 = .known .dec ∧ decode 0b00101110#8 = .known .out ∧ decode 0b00101100#8 = .known .inp ∧
    decode 0b01011011#8 = .known .brz ∧ decode 0b01011101#8 = .known .brnz ∧ decode 0b00000000#8 = .known .halt ∧
    ∀ b : Byte, b ∉ [0x3E#8, 0x3C#8, 0x2B#8, 0x2D#8, 0x2E#8, 0x2C#8, 0x5B#8, 0x5D#8, 0x00#8] → decode b = .unknown b

/-- R83: at most one entry of the map matches a byte, and the order of the comparisons changes no outcome. -/
def Obligations.DispatchOrderChangesNothing : Prop :=
  (∀ b i j, (b, i) ∈ opcodeMap → (b, j) ∈ opcodeMap → i = j) ∧
    ∀ (rows : List (Byte × Instr)), rows.Perm opcodeMap → ∀ b, decodeIn rows b = decode b

/-- Decode and encode agree on every well-formed instruction, and no other byte decodes to it. -/
def Obligations.DecodeEncodeRoundTrip : Prop :=
  ∀ i : Instr, wellFormedInstr i = true →
    decode (encode i) = .known i ∧ ∀ b, decode b = .known i → b = encode i

/-- R106: an unknown byte raises IllegalInstruction: `ic` keeps the value the fetch wrote, the record holds it and the byte,
`dc`, `Tape` and `out` are unchanged; under `WF(P)` the case never occurs. -/
def Obligations.UnknownByteRaisesIllegalInstruction : Prop :=
  (∀ (s : State) (b : Byte), s.rst = false → s.phase = .running → decode (fetchByte s (s.ic + 1#8)) = .unknown b →
    b = fetchByte s (s.ic + 1#8) ∧
      step s = .next { s with ic := s.ic + 1#8, fault := some ⟨s.ic + 1#8, b⟩, phase := .faulted }) ∧
    ∀ (n : Nat) (s : State) (a b : Byte), StoreWF n s.pstore → decode (fetchByte s a) ≠ .unknown b

/-- R201, R203: IllegalInstruction is the one way into FAULTED; it is precise, stops the block, is not the end of a run, and
its record stays until reset. -/
def Obligations.IllegalInstructionIsTheOneFault : Prop :=
  ∀ s t : State, step s = .next t →
    (t.phase = .faulted ↔ s.phase = .running ∧ ∃ b, decode (fetchByte s (s.ic + 1#8)) = .unknown b) ∧
      (t.phase = .faulted →
        t = { s with ic := s.ic + 1#8, fault := some ⟨s.ic + 1#8, fetchByte s (s.ic + 1#8)⟩, phase := .faulted } ∧
          faultCause t = some 1 ∧ ¬ Ended t ∧ (∀ u, step t ≠ .next u) ∧
          (∀ m, m ≠ .assertRst → (hostMove m t).fault = t.fault ∧ (hostMove m t).phase = .faulted) ∧
          (hostMove .assertRst t).fault = none ∧ ∀ n, ¬ StoreWF n s.pstore)

/-- R102: the phase a RUNNING step leaves: RUNNING but for the four events; and a scan step leaves its own phase or RUNNING. -/
def Obligations.FourEventsLeaveRunning : Prop :=
  (∀ s t : State, s.phase = .running → step s = .next t →
    t.phase =
      if fetchByte s (s.ic + 1#8) = 0x5B#8 ∧ memRead s s.dc = 0x00#8 then .scanFwd
      else if fetchByte s (s.ic + 1#8) = 0x5D#8 ∧ memRead s s.dc ≠ 0x00#8 then .scanBwd
      else if fetchByte s (s.ic + 1#8) = 0x00#8 then .halted
      else if (decode (fetchByte s (s.ic + 1#8))).instr? = none then .faulted
      else .running) ∧
    ∀ s t : State, s.phase = .scanFwd ∨ s.phase = .scanBwd → step s = .next t → t.phase = s.phase ∨ t.phase = .running

/-- R238: with `rst` released, a step is missing exactly in HALTED, in FAULTED, and in RUNNING before a `,` that the host has
not answered. -/
def Obligations.StepMissingOnlyInThreeCases : Prop :=
  ∀ s : State, s.rst = false →
    ((∀ t, step s ≠ .next t) ↔
      s.phase = .halted ∨ s.phase = .faulted ∨
        (s.phase = .running ∧ fetchByte s (s.ic + 1#8) = 0x2C#8 ∧ hostByte s = none))

/-! ## Data-cursor movement -/

/-- R120: INCP. -/
def Obligations.IncpMovesRight : Prop :=
  encode .incp = 0x3E#8 ∧
    ∀ s : State, ∃ t, exec .incp s = .next t ∧ t.dc.toNat = (s.dc.toNat + 1) % 256 ∧ t = { s with dc := t.dc }

/-- R121: DECP. -/
def Obligations.DecpMovesLeft : Prop :=
  encode .decp = 0x3C#8 ∧
    ∀ s : State, ∃ t, exec .decp s = .next t ∧ t.dc.toNat = (s.dc.toNat + 255) % 256 ∧ t = { s with dc := t.dc }

/-- R122: `>` then `<`, or `<` then `>`, changes nothing but `ic`. -/
def Obligations.PointerMovesUndoEachOther : Prop :=
  ∀ s : State,
    (Fetches s 0x3E#8 ∧ fetchByte s (s.ic + 2#8) = 0x3C#8) ∨ (Fetches s 0x3C#8 ∧ fetchByte s (s.ic + 2#8) = 0x3E#8) →
      run 2 s = .next { s with ic := s.ic + 2#8 }

/-! ## Cell arithmetic -/

/-- R130: INC. -/
def Obligations.IncAddsOneToCell : Prop :=
  encode .inc = 0x2B#8 ∧
    ∀ s : State, ∃ t, exec .inc s = .next t ∧ (memRead t s.dc).toNat = ((memRead s s.dc).toNat + 1) % 256 ∧
      (∀ a : Nat, a ≠ s.dc.toNat → Memory.read t.tape a = Memory.read s.tape a) ∧ t = { s with tape := t.tape }

/-- R131: DEC. -/
def Obligations.DecSubtractsOneFromCell : Prop :=
  encode .dec = 0x2D#8 ∧
    ∀ s : State, ∃ t, exec .dec s = .next t ∧ (memRead t s.dc).toNat = ((memRead s s.dc).toNat + 255) % 256 ∧
      (∀ a : Nat, a ≠ s.dc.toNat → Memory.read t.tape a = Memory.read s.tape a) ∧ t = { s with tape := t.tape }

/-- R132: `+` and `-` undo each other, and `k` in a row add or subtract `k` modulo 256. -/
def Obligations.CellArithmeticLaws : Prop :=
  (∀ s : State,
    (Fetches s 0x2B#8 ∧ fetchByte s (s.ic + 2#8) = 0x2D#8) ∨ (Fetches s 0x2D#8 ∧ fetchByte s (s.ic + 2#8) = 0x2B#8) →
      ∃ t, run 2 s = .next t ∧ t = { s with ic := s.ic + 2#8, tape := t.tape } ∧
        ∀ a : Nat, Memory.read t.tape a = Memory.read s.tape a) ∧
    (∀ (k : Nat) (s : State), s.rst = false → s.phase = .running →
      (∀ e : Nat, e < k → fetchByte s (s.ic + BitVec.ofNat 8 (e + 1)) = 0x2B#8) →
        ∃ t, run k s = .next t ∧ t = { s with ic := s.ic + BitVec.ofNat 8 k, tape := t.tape } ∧
          (memRead t s.dc).toNat = ((memRead s s.dc).toNat + k) % 256 ∧
          ∀ a : Nat, a ≠ s.dc.toNat → Memory.read t.tape a = Memory.read s.tape a) ∧
    (∀ (k : Nat) (s : State), s.rst = false → s.phase = .running →
      (∀ e : Nat, e < k → fetchByte s (s.ic + BitVec.ofNat 8 (e + 1)) = 0x2D#8) →
        ∃ t, run k s = .next t ∧ t = { s with ic := s.ic + BitVec.ofNat 8 k, tape := t.tape } ∧
          ((memRead t s.dc).toNat + k) % 256 = (memRead s s.dc).toNat ∧
          ∀ a : Nat, a ≠ s.dc.toNat → Memory.read t.tape a = Memory.read s.tape a)

/-- R235: the next instruction sees what the one before it wrote: after `+`, `-` and `,` the cell written, after `>` and `<`
the `dc` written, whichever instruction comes next. Beside what it writes the step changes `ic` alone (and, for `,`, the
host's side, log entry 2), so what comes next is the byte of `s`'s store at `ic + 2`. -/
def Obligations.NoHazardBetweenInstructions : Prop :=
  ∀ s : State,
    (Fetches s 0x2B#8 → ∃ t, step s = .next t ∧ t = { s with ic := s.ic + 1#8, tape := t.tape } ∧
      NextUses t s.dc (memRead s s.dc + 1#8)) ∧
    (Fetches s 0x2D#8 → ∃ t, step s = .next t ∧ t = { s with ic := s.ic + 1#8, tape := t.tape } ∧
      NextUses t s.dc (memRead s s.dc - 1#8)) ∧
    (∀ v, Fetches s 0x2C#8 → hostByte s = some v → ∃ t, step s = .next t ∧
      t = { s with ic := s.ic + 1#8, tape := t.tape, answers := t.answers, draws := t.draws } ∧ NextUses t s.dc v) ∧
    (Fetches s 0x3E#8 → ∃ t, step s = .next t ∧ t = { s with ic := s.ic + 1#8, dc := s.dc + 1#8 } ∧
      NextUses t (s.dc + 1#8) (memRead s (s.dc + 1#8))) ∧
    (Fetches s 0x3C#8 → ∃ t, step s = .next t ∧ t = { s with ic := s.ic + 1#8, dc := s.dc - 1#8 } ∧
      NextUses t (s.dc - 1#8) (memRead s (s.dc - 1#8)))

/-! ## Input and output -/

/-- R140: OUT. -/
def Obligations.OutEmitsCell : Prop :=
  encode .out = 0x2E#8 ∧
    ∀ s : State, ∃ t, exec .out s = .next t ∧ t = { s with out := s.out ++ [memRead s s.dc] } ∧
      exec .out t = .next { s with out := s.out ++ [memRead s s.dc, memRead s s.dc] }

/-- R141: IN writes the byte the host answers, whichever it is, to the current cell; while the host has not answered there
is no step, and `ic` is still at the instruction before the `,`. -/
def Obligations.InWritesHostByte : Prop :=
  encode .inp = 0x2C#8 ∧
    (∀ (s : State) (v : Byte), hostByte s = some v →
      ∃ t, exec .inp s = .next t ∧ memRead t s.dc = v ∧
        (∀ a : Nat, a ≠ s.dc.toNat → Memory.read t.tape a = Memory.read s.tape a) ∧
        t = { s with tape := t.tape, answers := t.answers, draws := t.draws }) ∧
    (∀ s : State, hostByte s = none → exec .inp s = .fault .awaitingInput) ∧
    (∀ s : State, Fetches s 0x2C#8 → hostByte s = none → step s = .fault .awaitingInput) ∧
    ∀ (s : State) (v : Byte), ∃ s', s' = { s with answers := s'.answers } ∧ hostByte s' = some v

/-- R67: before a `,` that the host has not answered the block is stuck, not halted and not faulted; the host may answer
with any byte, and then the step happens and writes that byte. -/
def Obligations.HostMayAnswerAnyByteOrNever : Prop :=
  ∀ s : State, Fetches s 0x2C#8 → hostByte s = none →
    (∀ t, step s ≠ .next t) ∧ s.phase ≠ .halted ∧ s.phase ≠ .faulted ∧
      ∀ v : Byte, ∃ t, step (hostMove (.answer v) s) = .next t ∧ memRead t s.dc = v ∧ t.ic = s.ic + 1#8 ∧
        t.phase = .running

/-- The model's own form of the host's answers (log entry 2): listed answers are taken oldest first, and past them an
answering host gives the free byte of the draw counter, each request a new one. It holds for every value of that byte. -/
def Obligations.AnswersTakenInOrder : Prop :=
  ∀ s : State,
    (∀ v rest, s.answers = v :: rest → ∃ t, exec .inp s = .next t ∧ memRead t s.dc = v ∧ t.answers = rest ∧
      t.draws = s.draws ∧ t.nextPort = s.nextPort) ∧
    (s.answers = [] → s.nextPort = .answering → ∃ t, exec .inp s = .next t ∧
      memRead t s.dc = Config.inputByte s.draws ∧ t.draws = s.draws + 1 ∧ t.answers = [] ∧ t.nextPort = .answering) ∧
    (s.answers = [] → s.nextPort = .silent → exec .inp s = .fault .awaitingInput)

/-- R30: `.` appends one byte to the trace, nothing else writes it but reset, which empties it, and the block never reads
it: the same step is made whatever was emitted before. -/
def Obligations.OutputTraceIsWriteOnly : Prop :=
  (∀ s t : State, step s = .next t →
    t.out = if s.phase = .running ∧ fetchByte s (s.ic + 1#8) = 0x2E#8 then s.out ++ [memRead s s.dc] else s.out) ∧
    (∀ (m : HostMove) (s : State), (hostMove m s).out = if m = .assertRst then [] else s.out) ∧
    ∀ (n : Nat) (s : State) (o : List Byte),
      (∀ t, run n s = .next t →
        run n { s with out := o ++ s.out } = .next { t with out := o ++ t.out }) ∧
      (∀ r, run n s = .fault r →
        run n { s with out := o ++ s.out } = .fault r)

/-! ## Loops -/

/-- R150: BRZ. -/
def Obligations.BrzScansForwardOnZero : Prop :=
  encode .brz = 0x5B#8 ∧
    ∀ s : State,
      (memRead s s.dc = 0x00#8 → exec .brz s = .next { s with sc := s.ic, phase := .scanFwd }) ∧
        (memRead s s.dc ≠ 0x00#8 → exec .brz s = .next s)

/-- R151: BRNZ. -/
def Obligations.BrnzScansBackwardOnNonZero : Prop :=
  encode .brnz = 0x5D#8 ∧
    ∀ s : State,
      (memRead s s.dc ≠ 0x00#8 → exec .brnz s = .next { s with sc := s.ic, phase := .scanBwd }) ∧
        (memRead s s.dc = 0x00#8 → exec .brnz s = .next s)

/-- R152: the forward-scan step, and where a forward scan started at `k` stops: `d` steps on, at `k + (d + 1) - 1`. -/
def Obligations.ForwardScanStopsAtCloseBracket : Prop :=
  ∀ s : State, s.rst = false → s.phase = .scanFwd →
    (fetchByte s (s.sc + 1#8) = 0x5D#8 →
      step s = .next { s with sc := s.sc + 1#8, ic := s.sc + 1#8, phase := .running }) ∧
    (fetchByte s (s.sc + 1#8) ≠ 0x5D#8 → step s = .next { s with sc := s.sc + 1#8 }) ∧
    ∀ d : Nat, 0 < d → (∀ e : Nat, 0 < e → e < d → fetchByte s (s.sc + BitVec.ofNat 8 e) ≠ 0x5D#8) →
      fetchByte s (s.sc + BitVec.ofNat 8 d) = 0x5D#8 →
        run d s =
          .next { s with sc := s.sc + BitVec.ofNat 8 d, ic := s.sc + BitVec.ofNat 8 (d + 1) - 1#8, phase := .running }

/-- R153: the backward-scan step (it goes on at 255 after 0), and where a backward scan started at `k` stops. -/
def Obligations.BackwardScanStopsAtOpenBracket : Prop :=
  ∀ s : State, s.rst = false → s.phase = .scanBwd →
    (fetchByte s (s.sc - 1#8) = 0x5B#8 →
      step s = .next { s with sc := s.sc - 1#8, ic := s.sc - 1#8, phase := .running }) ∧
    (fetchByte s (s.sc - 1#8) ≠ 0x5B#8 → step s = .next { s with sc := s.sc - 1#8 }) ∧
    ∀ d : Nat, 0 < d → (∀ e : Nat, 0 < e → e < d → fetchByte s (s.sc - BitVec.ofNat 8 e) ≠ 0x5B#8) →
      fetchByte s (s.sc - BitVec.ofNat 8 d) = 0x5B#8 →
        run d s =
          .next { s with sc := s.sc - BitVec.ofNat 8 d, ic := s.sc - BitVec.ofNat 8 d, phase := .running }

/-- R154, R157: a bracket whose test starts a scan lands on the nearest opposite bracket in the scan's direction, whatever
other bytes stand between, after one step and one scan step per byte read; nothing but `ic` and `sc` has changed then, and
on the way no step changes `dc`, `Tape` or `out`. The next fetch reads the byte after the bracket found. -/
def Obligations.BracketLandsOnNearestOpposite : Prop :=
  (∀ (s : State) (j : Byte), Fetches s 0x5B#8 → memRead s s.dc = 0x00#8 → fetchByte s j = 0x5D#8 →
    (∀ e : Nat, 0 < e → e < (j - (s.ic + 1#8)).toNat → fetchByte s (s.ic + 1#8 + BitVec.ofNat 8 e) ≠ 0x5D#8) →
      run (1 + (j - (s.ic + 1#8)).toNat) s = .next { s with ic := j, sc := j } ∧
        ∀ m : Nat, m ≤ (j - (s.ic + 1#8)).toNat → ∃ u, run m s = .next u ∧
          u.dc = s.dc ∧ u.tape = s.tape ∧ u.out = s.out) ∧
    (∀ (s : State) (i : Byte), Fetches s 0x5D#8 → memRead s s.dc ≠ 0x00#8 → fetchByte s i = 0x5B#8 →
      (∀ e : Nat, 0 < e → e < (s.ic + 1#8 - i).toNat → fetchByte s (s.ic + 1#8 - BitVec.ofNat 8 e) ≠ 0x5B#8) →
        run (1 + (s.ic + 1#8 - i).toNat) s = .next { s with ic := i, sc := i } ∧
          ∀ m : Nat, m ≤ (s.ic + 1#8 - i).toNat → ∃ u, run m s = .next u ∧
            u.dc = s.dc ∧ u.tape = s.tape ∧ u.out = s.out)

/-- R155: a scan step writes `sc`, and `ic` and `phase` only when it stops; it reads neither the tape nor `dc` nor `out`. -/
def Obligations.ScanReadsOnlyTheStore : Prop :=
  ∀ s t : State, s.phase = .scanFwd ∨ s.phase = .scanBwd → step s = .next t →
    ((t = { s with sc := t.sc }) ∨ (t = { s with sc := t.sc, ic := t.sc, phase := .running })) ∧
      ∀ (tape : Memory) (dc : Byte) (out : List Byte),
        step { s with tape := tape, dc := dc, out := out } = .next { t with tape := tape, dc := dc, out := out }

/-- R156: a scan stops if and only if the store holds its bracket; otherwise it steps for ever, `sc` running through all
offsets and nothing else changing. -/
def Obligations.ScanWithoutTargetNeverStops : Prop :=
  (∀ s : State, s.rst = false → s.phase = .scanFwd →
    ((∃ n t, run n s = .next t ∧ t.phase = .running) ↔ ∃ a, fetchByte s a = 0x5D#8) ∧
      ((∀ a, fetchByte s a ≠ 0x5D#8) →
        ∀ n, run n s = .next { s with sc := s.sc + BitVec.ofNat 8 n })) ∧
    (∀ s : State, s.rst = false → s.phase = .scanBwd →
      ((∃ n t, run n s = .next t ∧ t.phase = .running) ↔ ∃ a, fetchByte s a = 0x5B#8) ∧
        ((∀ a, fetchByte s a ≠ 0x5B#8) →
          ∀ n, run n s = .next { s with sc := s.sc - BitVec.ofNat 8 n }))

/-- 92_eei_decisions.md D4: under the parameter's other value a backward scan that moves from offset 0 to 255 has no step, and
every other backward-scan step is the same. This machine takes `cyclic` (R5). -/
def Obligations.ScanWrapStuckDiffersOnlyAtZero : Prop :=
  Config.scanWrap = .cyclic ∧
    ∀ s : State,
      (s.sc = 0x00#8 → scanBwdStepWith .stuck s = .fault .scanStuck) ∧
        (s.sc ≠ 0x00#8 → scanBwdStepWith .stuck s = scanBwdStepWith .cyclic s) ∧
        scanBwdStep s = scanBwdStepWith .cyclic s

/-- 44_loop.md section 3: in a well-formed balanced store a scan that a bracket starts stops, without wrapping, at an
offset below `n`. -/
def Obligations.BalancedStoreScansStop : Prop :=
  ∀ (n : Nat) (s : State), StoreWF n s.pstore → BracketBalanced (storeBytes s.pstore 0 n) →
    (Fetches s 0x5B#8 → memRead s s.dc = 0x00#8 →
      ∃ t, ScanLands s t ∧ (s.ic + 1#8).toNat < t.ic.toNat ∧ t.ic.toNat < n) ∧
    (Fetches s 0x5D#8 → memRead s s.dc ≠ 0x00#8 →
      ∃ t, ScanLands s t ∧ t.ic.toNat < (s.ic + 1#8).toNat ∧ (s.ic + 1#8).toNat < n)

/-- 44_loop.md section 3: the scan lands on the depth-matched partner exactly when no bracket stands between the two. -/
def Obligations.LandsOnPartnerIffBodyBracketFree : Prop :=
  (∀ (s : State) (j : Nat), Fetches s 0x5B#8 → memRead s s.dc = 0x00#8 → j < 256 →
    Partners s.pstore (s.ic + 1#8).toNat j →
      ((∃ t, ScanLands s t ∧ t.ic.toNat = j) ↔ BracketFree s.pstore (s.ic + 1#8).toNat j)) ∧
    (∀ (s : State) (k : Nat), Fetches s 0x5D#8 → memRead s s.dc ≠ 0x00#8 →
      Partners s.pstore k (s.ic + 1#8).toNat →
        ((∃ t, ScanLands s t ∧ t.ic.toNat = k) ↔ BracketFree s.pstore k (s.ic + 1#8).toNat))

/-! ## The end of a run -/

/-- R180: HALT; and a forward scan passes over `0x00` bytes without halting. -/
def Obligations.HaltStopsTheBlock : Prop :=
  encode .halt = 0x00#8 ∧ decode 0x00#8 = .known .halt ∧
    (∀ s : State, exec .halt s = .next { s with phase := .halted }) ∧
    ∀ s : State, s.rst = false → s.phase = .scanFwd → fetchByte s (s.sc + 1#8) = 0x00#8 →
      step s = .next { s with sc := s.sc + 1#8 }

/-- R181: HALTED has no step, and no state element changes until reset. -/
def Obligations.HaltedHasNoStep : Prop :=
  ∀ s : State, HeldInv s → s.phase = .halted →
    (∀ t, step s ≠ .next t) ∧
      ∀ m, m ≠ .assertRst →
        hostMove m s = { s with rst := (hostMove m s).rst, nextPort := (hostMove m s).nextPort,
                                answers := (hostMove m s).answers }

/-- 45_halt.md: two runs from reset over stores with the same bytes end alike and with the same result `(Tape, dc, ic, out)`,
given the input bytes alone. The second host may differ from the first in all else: in the answers past those taken, in what
it does once they are used up, in its draw counter. First for any two hosts whose runs take the same bytes, listed or free;
then for two lists of answers that agree in the bytes the first run takes, where the second run leaves its own remainder. -/
def Obligations.ResultDeterminedByProgramAndInputs : Prop :=
  ∀ (n : Nat) (s t u : State), AtReset s → AtReset t → s.rst = false → t.rst = false →
    (∀ a, fetchByte s a = fetchByte t a) → run n s = .next u → Ended u →
      (bytesTaken n t = bytesTaken n s → ∃ v, run n t = .next v ∧ Ended v ∧ runResult v = runResult u) ∧
      ∀ used rest rest' : List Byte, s.answers = used ++ rest → u.answers = rest → u.draws = s.draws →
        t.answers = used ++ rest' →
          ∃ v, run n t = .next v ∧ Ended v ∧ runResult v = runResult u ∧ v.answers = rest'

/-! ## Whole-machine rules and invariants -/

/-- 10_state.md section 1, the column "writable by": what a step that changes an element of the state must be. -/
def Obligations.StateWritableOnlyByItsInstructions : Prop :=
  ∀ s t : State, step s = .next t →
    t.pstore = s.pstore ∧ t.rst = s.rst ∧ t.nextPort = s.nextPort ∧
      (t.dc ≠ s.dc → s.phase = .running ∧
        (fetchByte s (s.ic + 1#8) = 0x3E#8 ∨ fetchByte s (s.ic + 1#8) = 0x3C#8)) ∧
      (∀ a, Memory.read t.tape a ≠ Memory.read s.tape a → a = s.dc.toNat ∧ s.phase = .running ∧
        (fetchByte s (s.ic + 1#8) = 0x2B#8 ∨ fetchByte s (s.ic + 1#8) = 0x2D#8 ∨ fetchByte s (s.ic + 1#8) = 0x2C#8)) ∧
      (t.out ≠ s.out → s.phase = .running ∧ fetchByte s (s.ic + 1#8) = 0x2E#8) ∧
      (t.sc ≠ s.sc → s.phase = .scanFwd ∨ s.phase = .scanBwd ∨
        (s.phase = .running ∧ (fetchByte s (s.ic + 1#8) = 0x5B#8 ∨ fetchByte s (s.ic + 1#8) = 0x5D#8))) ∧
      (t.fault ≠ s.fault → s.phase = .running ∧ t.phase = .faulted) ∧
      (t.answers ≠ s.answers ∨ t.draws ≠ s.draws → s.phase = .running ∧ fetchByte s (s.ic + 1#8) = 0x2C#8)

/-- 10_state.md section 3: `ic` is written by the fetch, which adds 1 and wraps, by the Loop Resolver, which sets it to the
offset where a scan stops, and by reset, which sets it to `0xFF`; by nothing else. -/
def Obligations.IcWrittenByFetchScanAndReset : Prop :=
  (∀ s t : State, s.phase = .running → step s = .next t → t.ic.toNat = (s.ic.toNat + 1) % 256) ∧
    (∀ s t : State, s.phase = .scanFwd ∨ s.phase = .scanBwd → step s = .next t →
      (t.phase = s.phase ∧ t.ic = s.ic) ∨ (t.phase = .running ∧ t.ic = t.sc)) ∧
    ∀ (m : HostMove) (s : State), (hostMove m s).ic = if m = .assertRst then 0xFF#8 else s.ic

/-- 10_state.md section 8: the value of `sc` outside a scan has no effect: two states that differ in an idle `sc` alone run
alike for ever, and stop for the same reason. -/
def Obligations.IdleScanCursorIsUnobservable : Prop :=
  ∀ (n : Nat) (s t : State), SameButIdleSc s t →
    (∀ u, run n s = .next u →
      ∃ v, run n t = .next v ∧ SameButIdleSc u v) ∧
    (∀ r, run n s = .fault r → run n t = .fault r)

/-- Every step keeps the canonical form of both memories and R31's rule of the fault record. -/
def Obligations.EveryStepKeepsInvariant : Prop :=
  ∀ s t : State, Inv s → step s = .next t → Inv t

/-- The invariant holds of the state after reset. -/
def Obligations.ResetMeetsInvariant : Prop := Inv State.reset

/-- Every move of the host keeps the invariant, given that `rst` holds the reset values. -/
def Obligations.EveryHostMoveKeepsInvariant : Prop :=
  ∀ (m : HostMove) (s : State), Inv s → HeldInv s → Inv (hostMove m s)

/-- 10_state.md section 11: over a well-formed store IllegalInstruction is never raised, in RUNNING the next fetch is at most
at offset `n`, a scan that stops, stops below `n`, and `ic` wraps only on the first fetch. -/
def Obligations.WellFormedStoreNeverFaults : Prop :=
  (∀ (n : Nat) (s : State), AtReset s → StoreWF n s.pstore → WfInv n s) ∧
    ∀ (n : Nat) (s t : State), WfInv n s → step s = .next t →
      WfInv n t ∧ t.phase ≠ .faulted ∧ (s.phase = .running → t.ic.toNat ≤ n ∧ t.ic ≠ 0xFF#8) ∧
        (s.phase = .scanFwd ∨ s.phase = .scanBwd → t.phase = .running → t.ic.toNat < n)

/-! ## Images -/

/-- R88, R89: two bytes share a 16-bit unit, high byte first; unpacking is the inverse; the image of a program is its
command bytes, the terminator, and zeros. -/
def Obligations.PackingIsHighByteFirst : Prop :=
  (∀ (bs : List Byte) (w : Nat), 2 * w < bs.length →
    (packUnits bs)[w]? = some (concat8 (bs.getD (2 * w) 0x00#8) (bs.getD (2 * w + 1) 0x00#8))) ∧
    (∀ (us : List (BitVec 16)) (w : Nat) (u : BitVec 16), us[w]? = some u →
      (unpackUnits us)[2 * w]? = some (u.extractLsb' 8 8) ∧ (unpackUnits us)[2 * w + 1]? = some (u.extractLsb' 0 8)) ∧
    (∀ bs : List Byte, (packUnits bs).length = (bs.length + 1) / 2 ∧
      Memory.ofBytes (unpackUnits (packUnits bs)) = Memory.ofBytes bs) ∧
    (∀ (cmds : List Byte) (a : Nat), a < 256 →
      Memory.read (Memory.ofBytes (unpackUnits (packUnits (programBytes cmds)))) a = cmds.getD a 0x00#8) ∧
    packUnits (programBytes [0x2B#8, 0x2E#8]) = [0x2B2E#16, 0x0000#16]

/-- R91: the packer accepts exactly the texts over the eight characters of length at most 252, answers the command bytes in
order and a terminator, and every image it answers is well formed. Each character's byte is written out from the opcode
table's character column (R81, R90). -/
def Obligations.PackerImagesAreWellFormed : Prop :=
  (charByte '>' = some 0x3E#8 ∧ charByte '<' = some 0x3C#8 ∧ charByte '+' = some 0x2B#8 ∧ charByte '-' = some 0x2D#8 ∧
    charByte '.' = some 0x2E#8 ∧ charByte ',' = some 0x2C#8 ∧ charByte '[' = some 0x5B#8 ∧ charByte ']' = some 0x5D#8) ∧
  ∀ text : List Char,
    ((∃ image, packText text = some image) ↔
      text.length ≤ 252 ∧ ∀ c ∈ text, c ∈ ['>', '<', '+', '-', '.', ',', '[', ']']) ∧
    ∀ image, packText text = some image →
      image.length = text.length + 1 ∧ image.getLast? = some 0x00#8 ∧
        (∀ (i : Nat) (c : Char), text[i]? = some c → image[i]? = charByte c) ∧
        StoreWF text.length (Memory.ofBytes image)

/-- A program's instructions, encoded, packed in units, unpacked and loaded, decode offset by offset to themselves, and every
offset past them to the terminator. -/
def Obligations.LoadedProgramDecodesToItself : Prop :=
  ∀ is : List Instr, is.length ≤ Config.maxProg →
    let P := Memory.ofBytes (unpackUnits (packUnits (programBytes (is.map encode))))
    (∀ (k : Nat) (i : Instr), is[k]? = some i → decode (Memory.read P k) = .known i) ∧
      (∀ k : Nat, is.length ≤ k → k < 256 → decode (Memory.read P k) = .known .halt) ∧
      (.halt ∉ is → StoreWF is.length P)

/-- Two tapes or stores in canonical form that read alike are the same data. -/
def Obligations.CanonicalMemoryIsUnique : Prop :=
  ∀ m m' : Memory, Memory.wf m → Memory.wf m' → (∀ a, a < 256 → Memory.read m a = Memory.read m' a) → m = m'

/-! ## The host's side -/

/-- 40_dispatch.md section 3: a step depends on the host only through the byte a `,` receives. With another host, a step that
executes no `,` is the same step and leaves that host as it was; a `,` for which both give the same byte has the same effect
on the block. -/
def Obligations.StepReadsOfTheHostOnlyTheByteTaken : Prop :=
  ∀ (s : State) (answers : List Byte) (nextPort : NextPort) (draws : Nat),
    let s' : State := { s with answers := answers, nextPort := nextPort, draws := draws }
    (¬ Fetches s 0x2C#8 →
      (∀ t, step s = .next t →
        step s' = .next { t with answers := answers, nextPort := nextPort, draws := draws }) ∧
        ∀ r, step s = .fault r → step s' = .fault r) ∧
    (∀ v, Fetches s 0x2C#8 → hostByte s = some v → hostByte s' = some v →
      ∃ t t', step s = .next t ∧ step s' = .next t' ∧
        t' = { t with answers := t'.answers, nextPort := nextPort, draws := t'.draws })
end

