-- ==== Sys2Proof/Laws/Decode.lean ====
section
/-! SUPPORT. What the opcode map says of a decoded byte. -/

namespace Sys2Proof

/-- The first-match lookup answers a row of the map, or Unknown with the byte itself. -/
theorem decodeIn_cases (rows : List (Byte × Instr)) (b : Byte) :
    (∃ i, (b, i) ∈ rows ∧ decodeIn rows b = .known i) ∨ ((∀ row ∈ rows, row.1 ≠ b) ∧ decodeIn rows b = .unknown b) := by
  induction rows with
  | nil => exact .inr ⟨by simp, rfl⟩
  | cons row rest ih =>
    simp only [decodeIn]
    split
    · rename_i h; exact .inl ⟨row.2, by subst h; simp, rfl⟩
    · rename_i h
      obtain ⟨i, hi, hd⟩ | ⟨hn, hd⟩ := ih
      · exact .inl ⟨i, by simp [hi], hd⟩
      · exact .inr ⟨by simpa [h] using hn, hd⟩

/-- An Unknown result carries the byte that was decoded (R82). -/
theorem decode_unknown_byte {b c : Byte} (h : decode b = .unknown c) : c = b := by
  obtain ⟨i, -, hd⟩ | ⟨-, hd⟩ := decodeIn_cases opcodeMap b <;> rw [decode, hd] at h <;> simp_all

/-- The rows of the map, one case each. -/
theorem decode_known_cases {b : Byte} {i : Instr} (h : decode b = .known i) : (b, i) ∈ opcodeMap := by
  obtain ⟨j, hj, hd⟩ | ⟨-, hd⟩ := decodeIn_cases opcodeMap b <;> rw [decode, hd] at h <;> simp_all

end Sys2Proof
end

