-- ==== Sys2Proof/Laws/Memory.lean ====
section
/-! SUPPORT. The laws of memory: a read after a write, and the canonical form that every operation keeps. -/

namespace Sys2Proof.Machine

@[simp] theorem Memory.read_nil (a : Nat) : Memory.read [] a = 0x00#8 := rfl

theorem Memory.read_erase (m : Memory) (a b : Nat) :
    Memory.read (Memory.erase m a) b = if b = a then 0x00#8 else Memory.read m b := by
  induction m with
  | nil => simp [Memory.erase]
  | cons c rest ih =>
    unfold Memory.erase at ih
    by_cases h : c.1 = a
    · simp only [Memory.erase, List.filter_cons, h, bne_self_eq_false, Bool.false_eq_true, if_false, ih, Memory.read]
      split <;> simp_all [eq_comm]
    · simp only [Memory.erase, List.filter_cons, bne_iff_ne, ne_eq, h, not_false_eq_true, if_true, Memory.read, ih]
      by_cases hb : c.1 = b
      · rw [if_pos hb, if_pos hb, if_neg (by omega)]
      · rw [if_neg hb, if_neg hb]

theorem Memory.read_insert (m : Memory) (a : Nat) (v : Byte) (b : Nat) (h : ∀ c ∈ m, c.1 ≠ a) :
    Memory.read (Memory.insert m a v) b = if b = a then v else Memory.read m b := by
  induction m with
  | nil => simp only [Memory.insert, Memory.read]; split <;> simp_all [eq_comm]
  | cons c rest ih =>
    have hc := h c (by simp)
    have hr := ih (fun d hd => h d (by simp [hd]))
    simp only [Memory.insert]
    split
    · simp only [Memory.read]
      by_cases hb : b = a
      · rw [if_pos hb, if_pos hb.symm]
      · rw [if_neg hb, if_neg (Ne.symm hb)]
    · simp only [Memory.read, hr]
      by_cases hb : c.1 = b
      · rw [if_pos hb, if_pos hb, if_neg (by omega)]
      · rw [if_neg hb, if_neg hb]

/-- A read after a write gives the byte written, and every other offset is left alone, on any list of cells. -/
theorem Memory.read_write (m : Memory) (a : Nat) (v : Byte) (b : Nat) :
    Memory.read (Memory.write m a v) b = if b = a then v else Memory.read m b := by
  unfold Memory.write
  split
  · rename_i h; rw [Memory.read_erase, h]; rfl
  · rw [Memory.read_insert _ _ _ _ (by simp [Memory.erase]), Memory.read_erase]; split <;> rfl

theorem Memory.wf_erase {m : Memory} (a : Nat) (h : Memory.wf m) : Memory.wf (Memory.erase m a) :=
  ⟨h.1.filter _, fun c hc => h.2 c (List.mem_filter.mp hc).1⟩

theorem Memory.mem_insert {m : Memory} {a : Nat} {v : Byte} {d : Host.Cell} (h : d ∈ Memory.insert m a v) :
    d = (a, v) ∨ d ∈ m := by
  induction m with
  | nil => simpa [Memory.insert] using h
  | cons c rest ih =>
    simp only [Memory.insert] at h
    split at h
    · simpa using h
    · rcases List.mem_cons.mp h with rfl | h
      · simp
      · rcases ih h with h | h <;> simp [h]

theorem Memory.wf_insert {m : Memory} {a : Nat} {v : Byte} (h : Memory.wf m) (hm : ∀ c ∈ m, c.1 ≠ a) (ha : a < 256)
    (hv : v ≠ unlistedByte) : Memory.wf (Memory.insert m a v) := by
  refine ⟨?_, fun d hd => ?_⟩
  · have hs := h.1
    clear h
    induction m with
    | nil => simp [Memory.insert]
    | cons c rest ih =>
      obtain ⟨hc, hr⟩ := List.pairwise_cons.mp hs
      have hca := hm c (by simp)
      simp only [Memory.insert]
      split
      · rename_i hlt
        refine List.pairwise_cons.mpr ⟨fun d hd => ?_, hs⟩
        rcases List.mem_cons.mp hd with rfl | hd
        · exact hlt
        · exact lt_trans hlt (hc d hd)
      · rename_i hge
        refine List.pairwise_cons.mpr ⟨fun d hd => ?_, ih (fun d hd => hm d (by simp [hd])) hr⟩
        rcases Memory.mem_insert hd with rfl | hd
        · dsimp only; omega
        · exact hc d hd
  · rcases Memory.mem_insert hd with rfl | hd
    · exact ⟨ha, hv⟩
    · exact h.2 d hd

/-- A write keeps the canonical form. -/
theorem Memory.wf_write {m : Memory} {a : Nat} (v : Byte) (h : Memory.wf m) (ha : a < 256) :
    Memory.wf (Memory.write m a v) := by
  unfold Memory.write
  split
  · exact Memory.wf_erase a h
  · exact Memory.wf_insert (Memory.wf_erase a h) (by simp [Memory.erase]) ha ‹_›

theorem Memory.mem_ofBytesFrom {a : Nat} {bs : List Byte} {d : Host.Cell} (h : d ∈ Memory.ofBytesFrom a bs) :
    a ≤ d.1 ∧ d.1 < a + bs.length ∧ d.2 ≠ unlistedByte := by
  induction bs generalizing a with
  | nil => simp [Memory.ofBytesFrom] at h
  | cons b rest ih =>
    simp only [Memory.ofBytesFrom] at h
    split at h
    · obtain ⟨h1, h2, h3⟩ := ih h; exact ⟨by omega, by simp only [List.length_cons]; omega, h3⟩
    · rcases List.mem_cons.mp h with rfl | h
      · exact ⟨le_refl _, by simp, ‹_›⟩
      · obtain ⟨h1, h2, h3⟩ := ih h; exact ⟨by omega, by simp only [List.length_cons]; omega, h3⟩

theorem Memory.pairwise_ofBytesFrom (a : Nat) (bs : List Byte) :
    (Memory.ofBytesFrom a bs).Pairwise (fun c d => c.1 < d.1) := by
  induction bs generalizing a with
  | nil => simp [Memory.ofBytesFrom]
  | cons b rest ih =>
    simp only [Memory.ofBytesFrom]
    split
    · exact ih _
    · exact List.pairwise_cons.mpr ⟨fun d hd => (Memory.mem_ofBytesFrom hd).1, ih _⟩

/-- A loaded image is in canonical form. -/
theorem Memory.wf_ofBytes (bs : List Byte) : Memory.wf (Memory.ofBytes bs) := by
  refine ⟨Memory.pairwise_ofBytesFrom _ _, fun c hc => ?_⟩
  have h := Memory.mem_ofBytesFrom hc
  have hl : (bs.take Config.pstoreSize).length ≤ 256 := by simp [Config.pstoreSize]
  exact ⟨by omega, h.2.2⟩

theorem Memory.read_ofBytesFrom_lt (bs : List Byte) (a b : Nat) (h : b < a) :
    Memory.read (Memory.ofBytesFrom a bs) b = 0x00#8 := by
  induction bs generalizing a with
  | nil => rfl
  | cons c rest ih =>
    simp only [Memory.ofBytesFrom]
    split
    · exact ih _ (by omega)
    · simp only [Memory.read, if_neg (by omega : ¬ a = b)]; exact ih _ (by omega)

theorem Memory.read_ofBytesFrom (bs : List Byte) (a i : Nat) :
    Memory.read (Memory.ofBytesFrom a bs) (a + i) = bs.getD i 0x00#8 := by
  induction bs generalizing a i with
  | nil => simp [Memory.ofBytesFrom]
  | cons c rest ih =>
    cases i with
    | zero =>
      simp only [Memory.ofBytesFrom]
      split
      · rename_i h; rw [Memory.read_ofBytesFrom_lt _ _ _ (by omega)]; simpa [unlistedByte] using h.symm
      · simp [Memory.read]
    | succ i =>
      have hi := ih (a + 1) i
      rw [show a + 1 + i = a + (i + 1) by omega] at hi
      simp only [Memory.ofBytesFrom]
      split
      · simpa using hi
      · simp only [Memory.read, if_neg (by omega : ¬ a = a + (i + 1))]; simpa using hi

/-- Offset `i` of a loaded image reads its byte, and `0x00` past its end (R27). -/
theorem Memory.read_ofBytes (bs : List Byte) (i : Nat) (h : i < 256) :
    Memory.read (Memory.ofBytes bs) i = bs.getD i 0x00#8 := by
  have := Memory.read_ofBytesFrom (bs.take Config.pstoreSize) 0 i
  rw [Nat.zero_add] at this
  rw [Memory.ofBytes, this]
  simp [List.getD_eq_getElem?_getD, Config.pstoreSize, h]

@[simp] theorem memWrite_read (s : State) (a v b : Byte) :
    memRead (memWrite s a v) b = if b = a then v else memRead s b := by
  simp only [memRead, memWrite, State.setTape, Memory.read_write, BitVec.toNat_inj]

/-- `FetchByte` after `P` alone is known: no operation of the block changes it. -/
@[simp] theorem fetchByte_memWrite (s : State) (a v b : Byte) : fetchByte (memWrite s a v) b = fetchByte s b := rfl

end Sys2Proof.Machine
end

