-- ==== Sys2Proof/Laws/State.lean ====
section
/-! SUPPORT. One lemma per field per update of State, so that no later proof unfolds a record update. -/

namespace Sys2Proof.Machine

section

variable (s : State) (x : Byte)

@[simp] theorem State.setIc_ic : (s.setIc x).ic = x := rfl
@[simp] theorem State.setIc_dc : (s.setIc x).dc = s.dc := rfl
@[simp] theorem State.setIc_tape : (s.setIc x).tape = s.tape := rfl
@[simp] theorem State.setIc_pstore : (s.setIc x).pstore = s.pstore := rfl
@[simp] theorem State.setIc_phase : (s.setIc x).phase = s.phase := rfl
@[simp] theorem State.setIc_sc : (s.setIc x).sc = s.sc := rfl
@[simp] theorem State.setIc_out : (s.setIc x).out = s.out := rfl
@[simp] theorem State.setIc_fault : (s.setIc x).fault = s.fault := rfl
@[simp] theorem State.setIc_rst : (s.setIc x).rst = s.rst := rfl
@[simp] theorem State.setIc_nextPort : (s.setIc x).nextPort = s.nextPort := rfl
@[simp] theorem State.setIc_answers : (s.setIc x).answers = s.answers := rfl
@[simp] theorem State.setIc_draws : (s.setIc x).draws = s.draws := rfl

end

section

variable (s : State) (x : Byte)

@[simp] theorem State.setDc_ic : (s.setDc x).ic = s.ic := rfl
@[simp] theorem State.setDc_dc : (s.setDc x).dc = x := rfl
@[simp] theorem State.setDc_tape : (s.setDc x).tape = s.tape := rfl
@[simp] theorem State.setDc_pstore : (s.setDc x).pstore = s.pstore := rfl
@[simp] theorem State.setDc_phase : (s.setDc x).phase = s.phase := rfl
@[simp] theorem State.setDc_sc : (s.setDc x).sc = s.sc := rfl
@[simp] theorem State.setDc_out : (s.setDc x).out = s.out := rfl
@[simp] theorem State.setDc_fault : (s.setDc x).fault = s.fault := rfl
@[simp] theorem State.setDc_rst : (s.setDc x).rst = s.rst := rfl
@[simp] theorem State.setDc_nextPort : (s.setDc x).nextPort = s.nextPort := rfl
@[simp] theorem State.setDc_answers : (s.setDc x).answers = s.answers := rfl
@[simp] theorem State.setDc_draws : (s.setDc x).draws = s.draws := rfl

end

section

variable (s : State) (x : Memory)

@[simp] theorem State.setTape_ic : (s.setTape x).ic = s.ic := rfl
@[simp] theorem State.setTape_dc : (s.setTape x).dc = s.dc := rfl
@[simp] theorem State.setTape_tape : (s.setTape x).tape = x := rfl
@[simp] theorem State.setTape_pstore : (s.setTape x).pstore = s.pstore := rfl
@[simp] theorem State.setTape_phase : (s.setTape x).phase = s.phase := rfl
@[simp] theorem State.setTape_sc : (s.setTape x).sc = s.sc := rfl
@[simp] theorem State.setTape_out : (s.setTape x).out = s.out := rfl
@[simp] theorem State.setTape_fault : (s.setTape x).fault = s.fault := rfl
@[simp] theorem State.setTape_rst : (s.setTape x).rst = s.rst := rfl
@[simp] theorem State.setTape_nextPort : (s.setTape x).nextPort = s.nextPort := rfl
@[simp] theorem State.setTape_answers : (s.setTape x).answers = s.answers := rfl
@[simp] theorem State.setTape_draws : (s.setTape x).draws = s.draws := rfl

end

section

variable (s : State) (x : Memory)

@[simp] theorem State.setPstore_ic : (s.setPstore x).ic = s.ic := rfl
@[simp] theorem State.setPstore_dc : (s.setPstore x).dc = s.dc := rfl
@[simp] theorem State.setPstore_tape : (s.setPstore x).tape = s.tape := rfl
@[simp] theorem State.setPstore_pstore : (s.setPstore x).pstore = x := rfl
@[simp] theorem State.setPstore_phase : (s.setPstore x).phase = s.phase := rfl
@[simp] theorem State.setPstore_sc : (s.setPstore x).sc = s.sc := rfl
@[simp] theorem State.setPstore_out : (s.setPstore x).out = s.out := rfl
@[simp] theorem State.setPstore_fault : (s.setPstore x).fault = s.fault := rfl
@[simp] theorem State.setPstore_rst : (s.setPstore x).rst = s.rst := rfl
@[simp] theorem State.setPstore_nextPort : (s.setPstore x).nextPort = s.nextPort := rfl
@[simp] theorem State.setPstore_answers : (s.setPstore x).answers = s.answers := rfl
@[simp] theorem State.setPstore_draws : (s.setPstore x).draws = s.draws := rfl

end

section

variable (s : State) (x : Phase)

@[simp] theorem State.setPhase_ic : (s.setPhase x).ic = s.ic := rfl
@[simp] theorem State.setPhase_dc : (s.setPhase x).dc = s.dc := rfl
@[simp] theorem State.setPhase_tape : (s.setPhase x).tape = s.tape := rfl
@[simp] theorem State.setPhase_pstore : (s.setPhase x).pstore = s.pstore := rfl
@[simp] theorem State.setPhase_phase : (s.setPhase x).phase = x := rfl
@[simp] theorem State.setPhase_sc : (s.setPhase x).sc = s.sc := rfl
@[simp] theorem State.setPhase_out : (s.setPhase x).out = s.out := rfl
@[simp] theorem State.setPhase_fault : (s.setPhase x).fault = s.fault := rfl
@[simp] theorem State.setPhase_rst : (s.setPhase x).rst = s.rst := rfl
@[simp] theorem State.setPhase_nextPort : (s.setPhase x).nextPort = s.nextPort := rfl
@[simp] theorem State.setPhase_answers : (s.setPhase x).answers = s.answers := rfl
@[simp] theorem State.setPhase_draws : (s.setPhase x).draws = s.draws := rfl

end

section

variable (s : State) (x : Byte)

@[simp] theorem State.setSc_ic : (s.setSc x).ic = s.ic := rfl
@[simp] theorem State.setSc_dc : (s.setSc x).dc = s.dc := rfl
@[simp] theorem State.setSc_tape : (s.setSc x).tape = s.tape := rfl
@[simp] theorem State.setSc_pstore : (s.setSc x).pstore = s.pstore := rfl
@[simp] theorem State.setSc_phase : (s.setSc x).phase = s.phase := rfl
@[simp] theorem State.setSc_sc : (s.setSc x).sc = x := rfl
@[simp] theorem State.setSc_out : (s.setSc x).out = s.out := rfl
@[simp] theorem State.setSc_fault : (s.setSc x).fault = s.fault := rfl
@[simp] theorem State.setSc_rst : (s.setSc x).rst = s.rst := rfl
@[simp] theorem State.setSc_nextPort : (s.setSc x).nextPort = s.nextPort := rfl
@[simp] theorem State.setSc_answers : (s.setSc x).answers = s.answers := rfl
@[simp] theorem State.setSc_draws : (s.setSc x).draws = s.draws := rfl

end

section

variable (s : State) (x : List Byte)

@[simp] theorem State.setOut_ic : (s.setOut x).ic = s.ic := rfl
@[simp] theorem State.setOut_dc : (s.setOut x).dc = s.dc := rfl
@[simp] theorem State.setOut_tape : (s.setOut x).tape = s.tape := rfl
@[simp] theorem State.setOut_pstore : (s.setOut x).pstore = s.pstore := rfl
@[simp] theorem State.setOut_phase : (s.setOut x).phase = s.phase := rfl
@[simp] theorem State.setOut_sc : (s.setOut x).sc = s.sc := rfl
@[simp] theorem State.setOut_out : (s.setOut x).out = x := rfl
@[simp] theorem State.setOut_fault : (s.setOut x).fault = s.fault := rfl
@[simp] theorem State.setOut_rst : (s.setOut x).rst = s.rst := rfl
@[simp] theorem State.setOut_nextPort : (s.setOut x).nextPort = s.nextPort := rfl
@[simp] theorem State.setOut_answers : (s.setOut x).answers = s.answers := rfl
@[simp] theorem State.setOut_draws : (s.setOut x).draws = s.draws := rfl

end

section

variable (s : State) (x : Option FaultRecord)

@[simp] theorem State.setFault_ic : (s.setFault x).ic = s.ic := rfl
@[simp] theorem State.setFault_dc : (s.setFault x).dc = s.dc := rfl
@[simp] theorem State.setFault_tape : (s.setFault x).tape = s.tape := rfl
@[simp] theorem State.setFault_pstore : (s.setFault x).pstore = s.pstore := rfl
@[simp] theorem State.setFault_phase : (s.setFault x).phase = s.phase := rfl
@[simp] theorem State.setFault_sc : (s.setFault x).sc = s.sc := rfl
@[simp] theorem State.setFault_out : (s.setFault x).out = s.out := rfl
@[simp] theorem State.setFault_fault : (s.setFault x).fault = x := rfl
@[simp] theorem State.setFault_rst : (s.setFault x).rst = s.rst := rfl
@[simp] theorem State.setFault_nextPort : (s.setFault x).nextPort = s.nextPort := rfl
@[simp] theorem State.setFault_answers : (s.setFault x).answers = s.answers := rfl
@[simp] theorem State.setFault_draws : (s.setFault x).draws = s.draws := rfl

end

section

variable (s : State) (x : Bool)

@[simp] theorem State.setRst_ic : (s.setRst x).ic = s.ic := rfl
@[simp] theorem State.setRst_dc : (s.setRst x).dc = s.dc := rfl
@[simp] theorem State.setRst_tape : (s.setRst x).tape = s.tape := rfl
@[simp] theorem State.setRst_pstore : (s.setRst x).pstore = s.pstore := rfl
@[simp] theorem State.setRst_phase : (s.setRst x).phase = s.phase := rfl
@[simp] theorem State.setRst_sc : (s.setRst x).sc = s.sc := rfl
@[simp] theorem State.setRst_out : (s.setRst x).out = s.out := rfl
@[simp] theorem State.setRst_fault : (s.setRst x).fault = s.fault := rfl
@[simp] theorem State.setRst_rst : (s.setRst x).rst = x := rfl
@[simp] theorem State.setRst_nextPort : (s.setRst x).nextPort = s.nextPort := rfl
@[simp] theorem State.setRst_answers : (s.setRst x).answers = s.answers := rfl
@[simp] theorem State.setRst_draws : (s.setRst x).draws = s.draws := rfl

end

section

variable (s : State) (x : NextPort)

@[simp] theorem State.setNextPort_ic : (s.setNextPort x).ic = s.ic := rfl
@[simp] theorem State.setNextPort_dc : (s.setNextPort x).dc = s.dc := rfl
@[simp] theorem State.setNextPort_tape : (s.setNextPort x).tape = s.tape := rfl
@[simp] theorem State.setNextPort_pstore : (s.setNextPort x).pstore = s.pstore := rfl
@[simp] theorem State.setNextPort_phase : (s.setNextPort x).phase = s.phase := rfl
@[simp] theorem State.setNextPort_sc : (s.setNextPort x).sc = s.sc := rfl
@[simp] theorem State.setNextPort_out : (s.setNextPort x).out = s.out := rfl
@[simp] theorem State.setNextPort_fault : (s.setNextPort x).fault = s.fault := rfl
@[simp] theorem State.setNextPort_rst : (s.setNextPort x).rst = s.rst := rfl
@[simp] theorem State.setNextPort_nextPort : (s.setNextPort x).nextPort = x := rfl
@[simp] theorem State.setNextPort_answers : (s.setNextPort x).answers = s.answers := rfl
@[simp] theorem State.setNextPort_draws : (s.setNextPort x).draws = s.draws := rfl

end

section

variable (s : State) (x : List Byte)

@[simp] theorem State.setAnswers_ic : (s.setAnswers x).ic = s.ic := rfl
@[simp] theorem State.setAnswers_dc : (s.setAnswers x).dc = s.dc := rfl
@[simp] theorem State.setAnswers_tape : (s.setAnswers x).tape = s.tape := rfl
@[simp] theorem State.setAnswers_pstore : (s.setAnswers x).pstore = s.pstore := rfl
@[simp] theorem State.setAnswers_phase : (s.setAnswers x).phase = s.phase := rfl
@[simp] theorem State.setAnswers_sc : (s.setAnswers x).sc = s.sc := rfl
@[simp] theorem State.setAnswers_out : (s.setAnswers x).out = s.out := rfl
@[simp] theorem State.setAnswers_fault : (s.setAnswers x).fault = s.fault := rfl
@[simp] theorem State.setAnswers_rst : (s.setAnswers x).rst = s.rst := rfl
@[simp] theorem State.setAnswers_nextPort : (s.setAnswers x).nextPort = s.nextPort := rfl
@[simp] theorem State.setAnswers_answers : (s.setAnswers x).answers = x := rfl
@[simp] theorem State.setAnswers_draws : (s.setAnswers x).draws = s.draws := rfl

end

section

variable (s : State) (x : Nat)

@[simp] theorem State.setDraws_ic : (s.setDraws x).ic = s.ic := rfl
@[simp] theorem State.setDraws_dc : (s.setDraws x).dc = s.dc := rfl
@[simp] theorem State.setDraws_tape : (s.setDraws x).tape = s.tape := rfl
@[simp] theorem State.setDraws_pstore : (s.setDraws x).pstore = s.pstore := rfl
@[simp] theorem State.setDraws_phase : (s.setDraws x).phase = s.phase := rfl
@[simp] theorem State.setDraws_sc : (s.setDraws x).sc = s.sc := rfl
@[simp] theorem State.setDraws_out : (s.setDraws x).out = s.out := rfl
@[simp] theorem State.setDraws_fault : (s.setDraws x).fault = s.fault := rfl
@[simp] theorem State.setDraws_rst : (s.setDraws x).rst = s.rst := rfl
@[simp] theorem State.setDraws_nextPort : (s.setDraws x).nextPort = s.nextPort := rfl
@[simp] theorem State.setDraws_answers : (s.setDraws x).answers = s.answers := rfl
@[simp] theorem State.setDraws_draws : (s.setDraws x).draws = x := rfl

end

end Sys2Proof.Machine
end

