-- ==== Sys2Proof/Laws/Ops.lean ====
section
/-! SUPPORT. For each shared operation, once, all it does. Later proofs cite these and do not unfold the operations. -/

namespace Sys2Proof.Machine

@[simp] theorem fetch_eq (s : State) : fetch s = s.setIc (s.ic + 1#8) := rfl

@[simp] theorem fetchByte_setIc (s : State) (v a : Byte) : fetchByte (s.setIc v) a = fetchByte s a := rfl

/-- All that raising IllegalInstruction does (R201). -/
theorem raiseIllegalInstruction_eq (s : State) (b : Byte) :
    raiseIllegalInstruction s b = { s with fault := some ⟨s.ic, b⟩, phase := .faulted } := rfl

/-- Writing the current cell changes that cell alone. -/
theorem setCell_read (s : State) (v a : Byte) : memRead (setCell s v) a = if a = s.dc then v else memRead s a :=
  memWrite_read s s.dc v a

/-- Writing the current cell writes no field but the tape. -/
theorem setCell_eq (s : State) (v : Byte) : setCell s v = { s with tape := (setCell s v).tape } := rfl

section

variable (s : State) (v : Byte)

@[simp] theorem setCell_ic : (setCell s v).ic = s.ic := rfl
@[simp] theorem setCell_dc : (setCell s v).dc = s.dc := rfl
@[simp] theorem setCell_pstore : (setCell s v).pstore = s.pstore := rfl
@[simp] theorem setCell_phase : (setCell s v).phase = s.phase := rfl
@[simp] theorem setCell_sc : (setCell s v).sc = s.sc := rfl
@[simp] theorem setCell_out : (setCell s v).out = s.out := rfl
@[simp] theorem setCell_fault : (setCell s v).fault = s.fault := rfl
@[simp] theorem setCell_rst : (setCell s v).rst = s.rst := rfl
@[simp] theorem setCell_nextPort : (setCell s v).nextPort = s.nextPort := rfl
@[simp] theorem setCell_answers : (setCell s v).answers = s.answers := rfl
@[simp] theorem setCell_draws : (setCell s v).draws = s.draws := rfl

end

/-- Writing the current cell keeps the tape's canonical form. -/
theorem setCell_wf {s : State} (v : Byte) (h : Memory.wf s.tape) : Memory.wf (setCell s v).tape :=
  Memory.wf_write v h (BitVec.isLt s.dc)

/-! Taking the host's byte touches `answers` and `draws` alone. -/

section

variable (s : State)

@[simp] theorem takeHostByte_ic : (takeHostByte s).ic = s.ic := rfl
@[simp] theorem takeHostByte_dc : (takeHostByte s).dc = s.dc := rfl
@[simp] theorem takeHostByte_tape : (takeHostByte s).tape = s.tape := rfl
@[simp] theorem takeHostByte_pstore : (takeHostByte s).pstore = s.pstore := rfl
@[simp] theorem takeHostByte_phase : (takeHostByte s).phase = s.phase := rfl
@[simp] theorem takeHostByte_sc : (takeHostByte s).sc = s.sc := rfl
@[simp] theorem takeHostByte_out : (takeHostByte s).out = s.out := rfl
@[simp] theorem takeHostByte_fault : (takeHostByte s).fault = s.fault := rfl
@[simp] theorem takeHostByte_rst : (takeHostByte s).rst = s.rst := rfl
@[simp] theorem takeHostByte_nextPort : (takeHostByte s).nextPort = s.nextPort := rfl

end

/-- Taking the host's byte touches the host's side alone. -/
theorem takeHostByte_eq (s : State) :
    takeHostByte s = { s with answers := (takeHostByte s).answers, draws := (takeHostByte s).draws } := rfl

/-- The host's byte, as a listed answer, a free byte, or none. -/
theorem hostByte_cases (s : State) :
    (∃ v rest, s.answers = v :: rest ∧ hostByte s = some v ∧ takeHostByte s = s.setAnswers rest) ∨
      (s.answers = [] ∧ s.nextPort = .answering ∧ hostByte s = some (Config.inputByte s.draws) ∧
        takeHostByte s = s.setDraws (s.draws + 1)) ∨
      (s.answers = [] ∧ s.nextPort = .silent ∧ hostByte s = none) := by
  unfold hostByte
  cases h : s.answers with
  | cons v rest => exact .inl ⟨v, rest, rfl, rfl, by simp [takeHostByte, h, State.setAnswers, State.setDraws]⟩
  | nil => cases hp : s.nextPort <;> simp [takeHostByte, State.setAnswers, State.setDraws, h]

/-- All that the end of a scan step does (R152, R153). -/
theorem scanCompare_cases (s : State) (bracket : Byte) :
    (fetchByte s s.sc = bracket ∧ scanCompare s bracket = { s with ic := s.sc, phase := .running }) ∨
      (fetchByte s s.sc ≠ bracket ∧ scanCompare s bracket = s) := by
  unfold scanCompare
  split
  · exact .inl ⟨‹_›, rfl⟩
  · exact .inr ⟨‹_›, rfl⟩

/-- A forward-scan step: `sc` advances, and at a `]` the block runs again from there (R152). -/
theorem scanFwdStep_cases (s : State) :
    (fetchByte s (s.sc + 1#8) = 0x5D#8 ∧
        scanFwdStep s = { s with sc := s.sc + 1#8, ic := s.sc + 1#8, phase := .running }) ∨
      (fetchByte s (s.sc + 1#8) ≠ 0x5D#8 ∧ scanFwdStep s = { s with sc := s.sc + 1#8 }) :=
  scanCompare_cases (s.setSc (s.sc + 1#8)) 0x5D#8

/-- A backward-scan step of this machine always has a next state (R153, D4). -/
theorem scanBwdStep_cases (s : State) :
    (fetchByte s (s.sc - 1#8) = 0x5B#8 ∧
        scanBwdStep s = .next { s with sc := s.sc - 1#8, ic := s.sc - 1#8, phase := .running }) ∨
      (fetchByte s (s.sc - 1#8) ≠ 0x5B#8 ∧ scanBwdStep s = .next { s with sc := s.sc - 1#8 }) := by
  obtain ⟨h, e⟩ | ⟨h, e⟩ := scanCompare_cases (s.setSc (s.sc - 1#8)) 0x5B#8
  · exact .inl ⟨h, congrArg _ e⟩
  · exact .inr ⟨h, congrArg _ e⟩

/-- Placing a byte for the next fetch: that fetch reads it. -/
theorem placeNextByte_fetch (s : State) (b : Byte) : fetchByte (placeNextByte s b) (s.ic + 1#8) = b := by
  simp [placeNextByte, fetchByte, Cursor.increment, add8, Memory.read_write]

end Sys2Proof.Machine
end

