-- ==== Sys2Proof/Laws/PerInstr.lean ====
section
/-! SUPPORT. The per-instruction family `OneRow`: the opcode map holds exactly one byte for the instruction, and it is the
byte the encoder writes (30_encoding.md R81, R83). -/

namespace Sys2Proof.Laws.OneRow

/-- The rows of the opcode map that stand for `i` are one row, of the byte `encode i`. -/
def Statement (i : Instr) : Prop := opcodeMap.filter (fun row => row.2 == i) = [(encode i, i)]

theorem incp : Statement .incp := by unfold Statement; decide
theorem decp : Statement .decp := by unfold Statement; decide
theorem inc : Statement .inc := by unfold Statement; decide
theorem dec : Statement .dec := by unfold Statement; decide
theorem out : Statement .out := by unfold Statement; decide
theorem inp : Statement .inp := by unfold Statement; decide
theorem brz : Statement .brz := by unfold Statement; decide
theorem brnz : Statement .brnz := by unfold Statement; decide
theorem halt : Statement .halt := by unfold Statement; decide

end Sys2Proof.Laws.OneRow
end

