-- ==== Sys2Proof/Laws/Step.lean ====
section
/-! SUPPORT. What a handler and a step can do, said once: claims over all steps start from `step_cases`. -/

namespace Sys2Proof.Machine

/-- What a handler that answers a next state has done. -/
theorem exec_cases {i : Instr} {s t : State} (h : exec i s = .next t) :
    (i = .incp ∧ t = s.setDc (s.dc + 1#8)) ∨ (i = .decp ∧ t = s.setDc (s.dc - 1#8)) ∨
      (i = .inc ∧ t = setCell s (cell s + 1#8)) ∨ (i = .dec ∧ t = setCell s (cell s - 1#8)) ∨
      (i = .out ∧ t = s.setOut (s.out ++ [cell s])) ∨
      (i = .inp ∧ ∃ v, hostByte s = some v ∧ t = setCell (takeHostByte s) v) ∨
      (i = .brz ∧ cell s = 0x00#8 ∧ t = (s.setSc s.ic).setPhase .scanFwd) ∨
      (i = .brz ∧ cell s ≠ 0x00#8 ∧ t = s) ∨
      (i = .brnz ∧ cell s ≠ 0x00#8 ∧ t = (s.setSc s.ic).setPhase .scanBwd) ∨
      (i = .brnz ∧ cell s = 0x00#8 ∧ t = s) ∨ (i = .halt ∧ t = s.setPhase .halted) := by
  cases i with
  | incp => cases h; simp [Cursor.increment, add8]
  | decp => cases h; simp [Cursor.decrement, sub8]
  | inc => cases h; simp [add8]
  | dec => cases h; simp [sub8]
  | out => cases h; simp [emit]
  | inp =>
    simp only [exec, execInp] at h
    split at h
    · cases h; simp_all
    · cases h
  | brz =>
    simp only [exec, execBrz, cellIsZero, beq_iff_eq] at h
    split at h <;> cases h <;> simp_all
  | brnz =>
    simp only [exec, execBrnz, cellIsZero, beq_iff_eq] at h
    split at h <;> cases h <;> simp_all
  | halt => cases h; simp

/-! IN, by what the host gives (R141). -/

theorem exec_inp_some {s : State} {v : Byte} (h : hostByte s = some v) :
    exec .inp s = .next (setCell (takeHostByte s) v) := by
  simp only [exec, execInp, h]

theorem exec_inp_none {s : State} (h : hostByte s = none) : exec .inp s = .fault .awaitingInput := by
  simp only [exec, execInp, h]

/-! The step in each phase, `rst` released (R103). -/

theorem step_running {s : State} (hr : s.rst = false) (hp : s.phase = .running) : step s = runningStep s := by
  simp [step, hr, hp]

theorem step_scanFwd {s : State} (hr : s.rst = false) (hp : s.phase = .scanFwd) : step s = .next (scanFwdStep s) := by
  simp [step, hr, hp]

theorem step_scanBwd {s : State} (hr : s.rst = false) (hp : s.phase = .scanBwd) : step s = scanBwdStep s := by
  simp [step, hr, hp]

/-- What a step that answers a next state has done: a handler, the fault, or one scan read (R103). -/
theorem step_cases {s t : State} (h : step s = .next t) :
    s.rst = false ∧
      ((s.phase = .running ∧ ∃ i, decode (fetchByte s (s.ic + 1#8)) = .known i ∧ exec i (s.setIc (s.ic + 1#8)) = .next t) ∨
        (s.phase = .running ∧ decode (fetchByte s (s.ic + 1#8)) = .unknown (fetchByte s (s.ic + 1#8)) ∧
          t = { s with ic := s.ic + 1#8, fault := some ⟨s.ic + 1#8, fetchByte s (s.ic + 1#8)⟩, phase := .faulted }) ∨
        (s.phase = .scanFwd ∧ t = scanFwdStep s) ∨ (s.phase = .scanBwd ∧ scanBwdStep s = .next t)) := by
  unfold step at h
  cases hr : s.rst with
  | true => rw [if_pos hr] at h; cases h
  | false =>
    rw [if_neg (by simp [hr])] at h
    refine ⟨rfl, ?_⟩
    cases hp : s.phase <;> rw [hp] at h <;> simp only [runningStep, fetch_eq, State.setIc_ic, fetchByte_setIc] at h
    · cases hd : decode (fetchByte s (s.ic + 1#8)) with
      | known i => rw [hd] at h; exact .inl ⟨rfl, i, rfl, h⟩
      | unknown b =>
        rw [hd] at h
        obtain rfl := decode_unknown_byte hd
        cases h
        exact .inr (.inl ⟨rfl, rfl, by simp [raiseIllegalInstruction_eq, State.setIc, hr]⟩)
    · cases h; simp
    · simp [h]
    · cases h
    · cases h

end Sys2Proof.Machine
end

