-- ==== Sys2Proof/Laws/Run.lean ====
section
/-! SUPPORT. Runs of steps: one more step, two runs in a row, and the induction over a run, made once. -/

namespace Sys2Proof.Safety

open Sys2Proof.Machine

@[simp] theorem run_zero (s : State) : run 0 s = .next s := rfl

/-- One more step of a run is the first step, then the rest. -/
theorem run_succ (n : Nat) (s : State) :
    run (n + 1) s =
      match step s with
      | .next t => run n t
      | .fault r => .fault r
      | .refused r => .refused r := rfl

/-- A run that can make its first step goes on from there. -/
theorem run_next {s t : State} (h : step s = .next t) (n : Nat) : run (n + 1) s = run n t := by
  rw [run_succ, h]

/-- `run` is the host's own run of the machine. -/
theorem run_eq_core (n : Nat) (s : State) : run n s = Host.Core.run Sys2Proof.core n s := by
  induction n generalizing s with
  | zero => rfl
  | succ n ih =>
    cases h : step s with
    | next t =>
      have hc : Sys2Proof.core.step s = .next t := h
      rw [run_succ, h]
      exact (ih t).trans (by simp only [Host.Core.run, hc]; rfl)
    | fault r =>
      have hc : Sys2Proof.core.step s = .fault r := h
      rw [run_succ, h]
      simp only [Host.Core.run, hc]
      rfl
    | refused r =>
      have hc : Sys2Proof.core.step s = .refused r := h
      rw [run_succ, h]
      simp only [Host.Core.run, hc]
      rfl

/-- A run of `m` steps that has a state can be gone on with. -/
theorem run_add {m : Nat} {s t : State} (h : run m s = .next t) (n : Nat) :
    run (m + n) s = run n t := by
  induction m generalizing s with
  | zero => cases h; rw [Nat.zero_add]
  | succ m ih =>
    rw [run_succ] at h
    rw [Nat.succ_add, run_succ]
    cases hs : step s with
    | next u => rw [hs] at h; exact ih h
    | fault r => rw [hs] at h; cases h
    | refused r => rw [hs] at h; cases h

/-- A property that every step keeps holds of every state a run reaches. -/
theorem run_keeps {p : State → Prop} (hp : ∀ s t, p s → step s = .next t → p t) {n : Nat} {s t : State} (hs : p s)
    (h : run n s = .next t) : p t := by
  induction n generalizing s with
  | zero => cases h; exact hs
  | succ n ih =>
    rw [run_succ] at h
    cases hu : step s with
    | next u => rw [hu] at h; exact ih (hp s u hs hu) h
    | fault r => rw [hu] at h; cases h
    | refused r => rw [hu] at h; cases h

/-- A run's bytes are its first step's, then those of the run from there. -/
theorem bytesTaken_next {s t : State} (h : step s = .next t) (n : Nat) :
    bytesTaken (n + 1) s = (if Fetches s 0x2C#8 then (hostByte s).toList else []) ++ bytesTaken n t := by
  simp only [bytesTaken, h]

end Sys2Proof.Safety
end

