-- ==== Sys2Proof/Tests/Slice0.lean ====
section
/-! SUPPORT. The model's own tests: the opcode map's words, the smoke test of the well-formedness checks, single steps from
95_test_vectors.md (each names its vector), and for each statement with hypotheses a state that meets them. -/

namespace Sys2Proof.Tests

open Sys2Proof.Machine Sys2Proof.Safety

/-- A block out of reset with the bytes `bs` in its store and `ic` at `c`. -/
def blockAt (bs : List Byte) (c : Byte) : State := { State.reset with pstore := Memory.ofBytes bs, ic := c }

/-- The same in a forward scan, its cursor at `c`. -/
def fwdAt (bs : List Byte) (c : Byte) : State := { blockAt bs 0x00#8 with phase := .scanFwd, sc := c }

/-- The same in a backward scan, its cursor at `c`. -/
def bwdAt (bs : List Byte) (c : Byte) : State := { blockAt bs 0x00#8 with phase := .scanBwd, sc := c }

/-- The state after one step, if the step has one. -/
def after (s : State) : Option State :=
  match step s with
  | .next t => some t
  | .fault _ => none
  | .refused _ => none

/-! The words of V-E1 to V-E9, bit by bit, and bytes next to them (V-X3). -/

theorem test_decode_incp : decode 0b00111110#8 = .known .incp := by decide
theorem test_decode_decp : decode 0b00111100#8 = .known .decp := by decide
theorem test_decode_inc : decode 0b00101011#8 = .known .inc := by decide
theorem test_decode_dec : decode 0b00101101#8 = .known .dec := by decide
theorem test_decode_out : decode 0b00101110#8 = .known .out := by decide
theorem test_decode_inp : decode 0b00101100#8 = .known .inp := by decide
theorem test_decode_brz : decode 0b01011011#8 = .known .brz := by decide
theorem test_decode_brnz : decode 0b01011101#8 = .known .brnz := by decide
theorem test_decode_halt : decode 0b00000000#8 = .known .halt := by decide
theorem test_decode_unknown :
    [0x01#8, 0x2A#8, 0x2F#8, 0x3D#8, 0x5C#8, 0x7B#8, 0x80#8, 0xFF#8].all (fun b => decode b == .unknown b) = true := by
  decide
theorem test_decode_table_word : decodeTableWord 8 0x3E = some .incp ∧ decodeTableWord 8 0x41 = none := by decide

/-! Well-formedness: a term each check refuses. Every instruction is well formed (R86). -/

theorem test_wf_accepts : wellFormedProgram [0x2B#8, 0x5D#8] = true ∧ wellFormedInstr .brz = true := by decide
theorem test_wf_refuses_byte : wellFormedProgram [0x2B#8, 0x41#8] = false := by decide
theorem test_wf_refuses_terminator : wellFormedProgram [0x2B#8, 0x00#8] = false := by decide
theorem test_wf_refuses_length : wellFormedProgram (List.replicate 253 0x2B#8) = false := by
  simp only [wellFormedProgram, Config.maxProg, List.length_replicate]
  rfl
/-- R91: a character outside the alphabet is rejected; V-K1: `+.` is `2B 2E 00`. -/
theorem test_packer : packText ['+', 'a'] = none ∧ packText ['+', '.'] = some [0x2B#8, 0x2E#8, 0x00#8] := by decide
/-- V-K3: `+++` packs as `0x2B2B 0x2B00`. -/
theorem test_pack_odd : packUnits (programBytes [0x2B#8, 0x2B#8, 0x2B#8]) = [0x2B2B#16, 0x2B00#16] := by decide

/-! Single steps. -/

/-- V-P1b. -/
theorem test_incp_wraps : (after { blockAt [0x3E#8] 0xFF#8 with dc := 0xFF#8 }).map State.dc = some 0x00#8 := by decide
/-- V-D2: increment before read. -/
theorem test_incp_after_fetch :
    (after (blockAt [0#8, 0#8, 0#8, 0#8, 0#8, 0x3E#8] 0x04#8)).map (fun t => (t.ic, t.dc)) = some (0x05#8, 0x01#8) := by
  decide
/-- V-P1d. -/
theorem test_decp_wraps : (after (blockAt [0x3C#8] 0xFF#8)).map State.dc = some 0xFF#8 := by decide
/-- V-D1: the first fetch after reset. -/
theorem test_inc_first_fetch : (after (blockAt [0x2B#8] 0xFF#8)).map (fun t => (t.ic, t.tape)) = some (0x00#8, [(0, 1#8)]) := by
  decide
/-- V-C1b. -/
theorem test_inc_wraps : (after { blockAt [0x2B#8] 0xFF#8 with tape := [(0, 0xFF#8)] }).map State.tape = some [] := by decide
/-- V-C1d. -/
theorem test_dec_wraps : (after (blockAt [0x2D#8] 0xFF#8)).map State.tape = some [(0, 0xFF#8)] := by decide
/-- V-C1f. -/
theorem test_dec_top_cell :
    (after { blockAt [0x2D#8] 0xFF#8 with dc := 0xFF#8, tape := [(0, 0x07#8), (255, 0x01#8)] }).map State.tape =
      some [(0, 0x07#8)] := by decide
/-- V-O2: a zero cell is emitted. -/
theorem test_out_zero : (after (blockAt [0x2E#8] 0xFF#8)).map State.out = some [0x00#8] := by decide
/-- V-O1. -/
theorem test_inp_writes : (after { blockAt [0x2C#8] 0xFF#8 with answers := [0x41#8] }).map State.tape = some [(0, 0x41#8)] := by
  decide
/-- V-O4: stuck while the host does not answer. -/
theorem test_inp_waits : after { blockAt [0x2C#8] 0xFF#8 with nextPort := .silent } = none := by decide
/-- V-B1. -/
theorem test_brz_zero :
    (after (blockAt [0#8, 0#8, 0#8, 0x5B#8] 0x02#8)).map (fun t => (t.ic, t.sc, t.phase)) =
      some (0x03#8, 0x03#8, .scanFwd) := by decide
/-- V-B2. -/
theorem test_brz_nonzero :
    (after { blockAt [0#8, 0#8, 0#8, 0x5B#8] 0x02#8 with tape := [(0, 5#8)] }).map (fun t => (t.ic, t.sc, t.phase)) =
      some (0x03#8, 0x00#8, .running) := by decide
/-- V-B3. -/
theorem test_brnz_nonzero :
    (after { blockAt [0#8, 0#8, 0#8, 0x5D#8] 0x02#8 with tape := [(0, 1#8)] }).map (fun t => (t.ic, t.sc, t.phase)) =
      some (0x03#8, 0x03#8, .scanBwd) := by decide
/-- V-B4. -/
theorem test_brnz_zero :
    (after (blockAt [0#8, 0#8, 0#8, 0x5D#8] 0x02#8)).map (fun t => (t.ic, t.sc, t.phase)) =
      some (0x03#8, 0x00#8, .running) := by decide
/-- V-B7, V-B8: a `[` and a zero byte are passed over. -/
theorem test_scan_passes :
    (after (fwdAt [0x5B#8] 0xFF#8)).map State.phase = some .scanFwd ∧ (after (fwdAt [] 0x03#8)).map State.phase = some .scanFwd := by
  decide
/-- V-B9: a forward scan wraps from 255 to 0. -/
theorem test_scan_fwd_wraps : (after (fwdAt [0x5D#8] 0xFF#8)).map (fun t => (t.sc, t.ic, t.phase)) = some (0#8, 0#8, .running) := by
  decide
/-- V-B13: a backward scan wraps from 0 to 255. -/
theorem test_scan_bwd_wraps : (after (bwdAt [] 0x00#8)).map (fun t => (t.sc, t.phase)) = some (0xFF#8, .scanBwd) := by decide
/-- V-B11. -/
theorem test_scan_bwd_stops :
    (after (bwdAt [0#8, 0x5B#8] 0x02#8)).map (fun t => (t.sc, t.ic, t.phase)) = some (1#8, 1#8, .running) := by decide
/-- V-D3: the empty program. -/
theorem test_halt : (after State.reset).map (fun t => (t.phase, t.ic)) = some (.halted, 0x00#8) := by decide
/-- V-X2: an illegal byte at offset 0. -/
theorem test_unknown_faults :
    (after (blockAt [0xFF#8] 0xFF#8)).map (fun t => (t.phase, t.fault)) = some (.faulted, some ⟨0x00#8, 0xFF#8⟩) := by decide
/-- R80, R100: the word placed for the next fetch is the one run. -/
theorem test_with_fetch_word : (after (State.reset.withFetchWord 8 0x3C)).map State.dc = some 0xFF#8 := by decide
/-- IN runs as the first instruction after reset; its byte is free. -/
theorem test_inp_from_reset : (after (State.reset.withFetchWord 8 0x2C)).isSome = true := rfl

/-! States that meet the hypotheses of the statements. -/

theorem test_atReset : AtReset State.reset := ⟨fun _ => rfl, rfl, rfl, rfl, rfl, rfl, rfl⟩

theorem test_witness_RstHoldsBlockAtResetValues :
    (hostMove .assertRst State.reset).rst = true ∧ HeldInv (hostMove .assertRst State.reset) ∧ HeldInv State.reset ∧
      (after State.reset).isSome = true :=
  ⟨rfl, fun _ => test_atReset, nofun, by decide⟩

theorem test_witness_FirstFetchReadsOffsetZero :
    AtReset State.reset ∧ State.reset.rst = false ∧ decode (fetchByte State.reset 0x00#8) = .known .halt ∧
      AtReset (blockAt [0xFF#8] 0xFF#8) ∧ decode (fetchByte (blockAt [0xFF#8] 0xFF#8) 0x00#8) = .unknown 0xFF#8 :=
  ⟨test_atReset, rfl, by decide, test_atReset, by decide⟩

theorem test_witness_OnlyResetLeavesHaltedOrFaulted :
    ({ State.reset with phase := .halted }).phase = .halted ∧ ({ State.reset with phase := .faulted }).phase = .faulted ∧
      HostMove.releaseRst ≠ .assertRst := by decide

theorem test_witness_StoreUnchangedWhileRunning : run 1 (blockAt [0x3E#8] 0xFF#8) = .next (blockAt [0x3E#8] 0x00#8 |>.setDc 1#8) ∧
    State.reset.rst = false := ⟨rfl, rfl⟩

theorem test_witness_StatusOutputsReflectPhase :
    RecordInv { blockAt [0xFF#8] 0x00#8 with phase := .faulted, fault := some ⟨0x00#8, 0xFF#8⟩ } := by decide

theorem test_witness_StepRunsDecodedInstruction :
    (blockAt [0x2B#8, 0x41#8] 0xFF#8).rst = false ∧ (blockAt [0x2B#8, 0x41#8] 0xFF#8).phase = .running ∧
      decode (fetchByte (blockAt [0x2B#8, 0x41#8] 0xFF#8) 0x00#8) = .known .inc ∧
      decode (fetchByte (blockAt [0x2B#8, 0x41#8] 0x00#8) 0x01#8) = .unknown 0x41#8 := by decide

theorem test_witness_DecodeIsTheOpcodeTable :
    0x3D#8 ∉ [0x3E#8, 0x3C#8, 0x2B#8, 0x2D#8, 0x2E#8, 0x2C#8, 0x5B#8, 0x5D#8, 0x00#8] := by decide

theorem test_witness_DispatchOrderChangesNothing : (0x00#8, .halt) ∈ opcodeMap ∧ opcodeMap.reverse.Perm opcodeMap :=
  ⟨by decide, List.reverse_perm _⟩

theorem test_witness_DecodeEncodeRoundTrip : wellFormedInstr .inp = true ∧ decode 0x2C#8 = .known .inp := by decide

theorem test_storeWF : StoreWF 1 (Memory.ofBytes [0x2B#8]) ∧ StoreWF 0 [] := by
  refine ⟨⟨by decide, fun a ha => ?_⟩, by decide, fun a _ => by simp⟩
  rcases a with _ | a
  · decide
  · rw [if_neg (by omega), Memory.read_ofBytes _ _ ha]; simp

theorem test_witness_UnknownByteRaisesIllegalInstruction :
    (blockAt [0x41#8] 0xFF#8).rst = false ∧ (blockAt [0x41#8] 0xFF#8).phase = .running ∧
      decode (fetchByte (blockAt [0x41#8] 0xFF#8) 0x00#8) = .unknown 0x41#8 ∧ StoreWF 1 (blockAt [0x2B#8] 0xFF#8).pstore :=
  ⟨rfl, rfl, by decide, test_storeWF.1⟩

theorem test_witness_IllegalInstructionIsTheOneFault :
    (after (blockAt [0x41#8] 0xFF#8)).map State.phase = some .faulted ∧ (after State.reset).map State.phase = some .halted := by
  decide

theorem test_witness_FourEventsLeaveRunning :
    State.reset.phase = .running ∧ (after State.reset).isSome = true ∧ (after (fwdAt [] 0#8)).isSome = true ∧
      (after (bwdAt [] 0#8)).isSome = true := by decide

theorem test_witness_StepMissingOnlyInThreeCases :
    State.reset.rst = false ∧ (after State.reset).isSome = true ∧ after { State.reset with phase := .halted } = none ∧
      after { State.reset with phase := .faulted } = none ∧ after { blockAt [0x2C#8] 0xFF#8 with nextPort := .silent } = none := by
  decide

theorem test_witness_PointerMovesUndoEachOther :
    (Fetches (blockAt [0x3E#8, 0x3C#8] 0xFF#8) 0x3E#8 ∧ fetchByte (blockAt [0x3E#8, 0x3C#8] 0xFF#8) 0x01#8 = 0x3C#8) ∧
      (Fetches (blockAt [0x3C#8, 0x3E#8] 0xFF#8) 0x3C#8 ∧ fetchByte (blockAt [0x3C#8, 0x3E#8] 0xFF#8) 0x01#8 = 0x3E#8) := by
  decide

theorem test_witness_CellArithmeticLaws :
    (Fetches (blockAt [0x2B#8, 0x2D#8] 0xFF#8) 0x2B#8 ∧ fetchByte (blockAt [0x2B#8, 0x2D#8] 0xFF#8) 0x01#8 = 0x2D#8) ∧
      (Fetches (blockAt [0x2D#8, 0x2B#8] 0xFF#8) 0x2D#8 ∧ fetchByte (blockAt [0x2D#8, 0x2B#8] 0xFF#8) 0x01#8 = 0x2B#8) ∧
      (∀ e : Nat, e < 2 → fetchByte (blockAt [0x2B#8, 0x2B#8] 0xFF#8) (0xFF#8 + BitVec.ofNat 8 (e + 1)) = 0x2B#8) ∧
      (∀ e : Nat, e < 2 → fetchByte (blockAt [0x2D#8, 0x2D#8] 0xFF#8) (0xFF#8 + BitVec.ofNat 8 (e + 1)) = 0x2D#8) := by
  decide

/-- Each writer of R235, and after `+` at offset 0 each instruction with an operand at offset 1. -/
theorem test_witness_NoHazardBetweenInstructions :
    [0x2B#8, 0x2D#8, 0x2C#8, 0x3E#8, 0x3C#8].all (fun b => decide (Fetches (blockAt [b, 0x2E#8] 0xFF#8) b)) = true ∧
      hostByte { blockAt [0x2C#8, 0x2E#8] 0xFF#8 with answers := [0x41#8] } = some 0x41#8 ∧
      [0x2B#8, 0x2D#8, 0x2E#8, 0x2C#8, 0x5B#8, 0x5D#8, 0x3E#8, 0x3C#8].all (fun b =>
        (after (blockAt [0x2B#8, b] 0xFF#8)).any (fun t => decide (Fetches t b))) = true := by decide

theorem test_witness_InWritesHostByte :
    hostByte { State.reset with answers := [0xFF#8] } = some 0xFF#8 ∧ hostByte { State.reset with nextPort := .silent } = none := by
  decide

theorem test_witness_HostMayAnswerAnyByteOrNever :
    Fetches { blockAt [0x2C#8] 0xFF#8 with nextPort := .silent } 0x2C#8 ∧
      hostByte { blockAt [0x2C#8] 0xFF#8 with nextPort := .silent } = none := by decide

theorem test_witness_AnswersTakenInOrder :
    ({ State.reset with answers := [1#8, 2#8] }).answers = 1#8 :: [2#8] ∧ State.reset.answers = [] ∧
      State.reset.nextPort = .answering ∧ ({ State.reset with nextPort := .silent }).nextPort = .silent := by decide

theorem test_witness_OutputTraceIsWriteOnly :
    (after (blockAt [0x2E#8] 0xFF#8)).isSome = true ∧ run 1 State.reset = .next { State.reset with ic := 0#8, phase := .halted } ∧
      run 2 State.reset = .fault .halted := ⟨by decide, rfl, rfl⟩

theorem test_witness_BrzScansForwardOnZero :
    memRead State.reset State.reset.dc = 0x00#8 ∧ memRead { State.reset with tape := [(0, 1#8)] } 0x00#8 ≠ 0x00#8 := by decide

theorem test_witness_BrnzScansBackwardOnNonZero :
    memRead { State.reset with tape := [(0, 0xFF#8)] } 0x00#8 ≠ 0x00#8 ∧ memRead State.reset State.reset.dc = 0x00#8 := by
  decide

theorem test_witness_ForwardScanStopsAtCloseBracket :
    (fwdAt [0x2B#8, 0x5D#8] 0xFF#8).phase = .scanFwd ∧ fetchByte (fwdAt [0x5D#8] 0xFF#8) (0xFF#8 + 1#8) = 0x5D#8 ∧
      fetchByte (fwdAt [0x2B#8, 0x5D#8] 0xFF#8) (0xFF#8 + 1#8) ≠ 0x5D#8 ∧
      fetchByte (fwdAt [0x2B#8, 0x5D#8] 0xFF#8) (0xFF#8 + BitVec.ofNat 8 2) = 0x5D#8 ∧
      ∀ e : Nat, 0 < e → e < 2 → fetchByte (fwdAt [0x2B#8, 0x5D#8] 0xFF#8) (0xFF#8 + BitVec.ofNat 8 e) ≠ 0x5D#8 := by
  refine ⟨rfl, by decide, by decide, by decide, fun e h1 h2 => ?_⟩
  obtain rfl : e = 1 := by omega
  decide

theorem test_witness_BackwardScanStopsAtOpenBracket :
    (bwdAt [0x5B#8, 0x2B#8] 0x02#8).phase = .scanBwd ∧ fetchByte (bwdAt [0x5B#8] 0x01#8) (0x01#8 - 1#8) = 0x5B#8 ∧
      fetchByte (bwdAt [] 0x00#8) (0x00#8 - 1#8) ≠ 0x5B#8 ∧
      fetchByte (bwdAt [0x5B#8, 0x2B#8] 0x02#8) (0x02#8 - BitVec.ofNat 8 2) = 0x5B#8 ∧
      ∀ e : Nat, 0 < e → e < 2 → fetchByte (bwdAt [0x5B#8, 0x2B#8] 0x02#8) (0x02#8 - BitVec.ofNat 8 e) ≠ 0x5B#8 := by
  refine ⟨rfl, by decide, by decide, by decide, fun e h1 h2 => ?_⟩
  obtain rfl : e = 1 := by omega
  decide

/-- `[[]`: the scan from the first `[` passes the second; `[]]`: the one from the last `]` passes the other. -/
theorem test_witness_BracketLandsOnNearestOpposite :
    Fetches (blockAt [0x5B#8, 0x5B#8, 0x5D#8] 0xFF#8) 0x5B#8 ∧ memRead (blockAt [] 0xFF#8) 0x00#8 = 0x00#8 ∧
      fetchByte (blockAt [0x5B#8, 0x5B#8, 0x5D#8] 0xFF#8) 0x02#8 = 0x5D#8 ∧
      (∀ e : Nat, 0 < e → e < (0x02#8 - (0xFF#8 + 1#8)).toNat →
        fetchByte (blockAt [0x5B#8, 0x5B#8, 0x5D#8] 0xFF#8) (0xFF#8 + 1#8 + BitVec.ofNat 8 e) ≠ 0x5D#8) ∧
      Fetches { blockAt [0x5B#8, 0x5D#8, 0x5D#8] 0x01#8 with tape := [(0, 1#8)] } 0x5D#8 ∧
      fetchByte (blockAt [0x5B#8, 0x5D#8, 0x5D#8] 0x01#8) 0x00#8 = 0x5B#8 ∧
      (∀ e : Nat, 0 < e → e < (0x01#8 + 1#8 - 0x00#8).toNat →
        fetchByte (blockAt [0x5B#8, 0x5D#8, 0x5D#8] 0x01#8) (0x01#8 + 1#8 - BitVec.ofNat 8 e) ≠ 0x5B#8) := by
  refine ⟨by decide, rfl, by decide, fun e h1 h2 => ?_, by decide, by decide, fun e h1 h2 => ?_⟩
  · obtain rfl : e = 1 := by have : e < 2 := h2; omega
    decide
  · obtain rfl : e = 1 := by have : e < 2 := h2; omega
    decide

theorem test_witness_ScanReadsOnlyTheStore :
    (fwdAt [] 0#8).phase = .scanFwd ∧ (after (fwdAt [] 0#8)).isSome = true ∧ (bwdAt [] 0#8).phase = .scanBwd ∧
      (after (bwdAt [] 0#8)).isSome = true := by decide

theorem test_witness_ScanWithoutTargetNeverStops :
    (fwdAt [] 0#8).rst = false ∧ (fwdAt [] 0#8).phase = .scanFwd ∧ (∀ a, fetchByte (fwdAt [] 0#8) a ≠ 0x5D#8) ∧
      (bwdAt [] 0#8).phase = .scanBwd ∧ (∀ a, fetchByte (bwdAt [] 0#8) a ≠ 0x5B#8) :=
  ⟨rfl, rfl, fun _ h => absurd h (by decide : (0x00#8 : Byte) ≠ 0x5D#8), rfl,
    fun _ h => absurd h (by decide : (0x00#8 : Byte) ≠ 0x5B#8)⟩

theorem test_witness_ScanWrapStuckDiffersOnlyAtZero : (bwdAt [] 0x00#8).sc = 0x00#8 ∧ (bwdAt [] 0x01#8).sc ≠ 0x00#8 := by decide

/-- The store of `[]`, well formed with two command bytes and balanced. -/
theorem test_storeWF_loop : StoreWF 2 (Memory.ofBytes [0x5B#8, 0x5D#8]) := by
  refine ⟨by decide, fun a ha => ?_⟩
  rcases a with _ | _ | a
  · decide
  · decide
  · rw [if_neg (by omega), Memory.read_ofBytes _ _ ha]; simp

theorem test_witness_BalancedStoreScansStop :
    StoreWF 2 (blockAt [0x5B#8, 0x5D#8] 0xFF#8).pstore ∧ BracketBalanced (storeBytes (blockAt [0x5B#8, 0x5D#8] 0xFF#8).pstore 0 2) ∧
      Fetches (blockAt [0x5B#8, 0x5D#8] 0xFF#8) 0x5B#8 ∧ memRead (blockAt [] 0xFF#8) 0x00#8 = 0x00#8 ∧
      Fetches { blockAt [0x5B#8, 0x5D#8] 0x00#8 with tape := [(0, 1#8)] } 0x5D#8 ∧
      memRead { blockAt [0x5B#8, 0x5D#8] 0x00#8 with tape := [(0, 1#8)] } 0x00#8 ≠ 0x00#8 :=
  ⟨test_storeWF_loop, by decide, by decide, by decide, by decide, by decide⟩

theorem test_witness_LandsOnPartnerIffBodyBracketFree :
    Partners (blockAt [0x5B#8, 0x2B#8, 0x5D#8] 0xFF#8).pstore 0 2 ∧ Fetches (blockAt [0x5B#8, 0x2B#8, 0x5D#8] 0xFF#8) 0x5B#8 ∧
      Fetches { blockAt [0x5B#8, 0x2B#8, 0x5D#8] 0x01#8 with tape := [(0, 1#8)] } 0x5D#8 ∧
      Partners (blockAt [0x5B#8, 0x5B#8, 0x5D#8, 0x5D#8] 0xFF#8).pstore 0 3 := by decide

theorem test_witness_HaltStopsTheBlock :
    (fwdAt [] 0#8).rst = false ∧ (fwdAt [] 0#8).phase = .scanFwd ∧ fetchByte (fwdAt [] 0#8) (0#8 + 1#8) = 0x00#8 := by decide

theorem test_witness_HaltedHasNoStep :
    HeldInv { State.reset with phase := .halted } ∧ ({ State.reset with phase := .halted }).phase = .halted ∧
      HostMove.load [] ≠ .assertRst := ⟨nofun, rfl, by decide⟩

/-- `,` then the terminator, with a host that has answered 5 and 6, and one that has answered 5 and then is silent. -/
theorem test_witness_ResultDeterminedByProgramAndInputs :
    let s := { blockAt [0x2C#8] 0xFF#8 with answers := [5#8, 6#8] }
    let t := { blockAt [0x2C#8] 0xFF#8 with answers := [5#8], nextPort := .silent, draws := 7 }
    AtReset s ∧ AtReset t ∧ bytesTaken 2 s = [5#8] ∧ bytesTaken 2 t = [5#8] ∧
      run 2 s = .next { s with ic := 1#8, phase := .halted, tape := [(0, 5#8)], answers := [6#8] } ∧
      s.answers = [5#8] ++ [6#8] ∧ t.answers = [5#8] ++ [] :=
  ⟨test_atReset, test_atReset, by decide, by decide, rfl, rfl, rfl⟩

theorem test_witness_StepReadsOfTheHostOnlyTheByteTaken :
    ¬ Fetches State.reset 0x2C#8 ∧ (after State.reset).isSome = true ∧ Fetches (blockAt [0x2C#8] 0xFF#8) 0x2C#8 ∧
      hostByte { blockAt [0x2C#8] 0xFF#8 with answers := [5#8] } = some 5#8 ∧
      hostByte { blockAt [0x2C#8] 0xFF#8 with answers := [5#8, 6#8], nextPort := .silent } = some 5#8 := by decide

theorem test_witness_StateWritableOnlyByItsInstructions :
    (after (blockAt [0x3E#8] 0xFF#8)).map State.dc = some 0x01#8 ∧ (after (fwdAt [] 0#8)).map State.sc = some 0x01#8 ∧
      (after (blockAt [0x41#8] 0xFF#8)).map State.fault = some (some ⟨0x00#8, 0x41#8⟩) := by decide

theorem test_witness_IcWrittenByFetchScanAndReset :
    (after State.reset).map State.ic = some 0x00#8 ∧ (after (fwdAt [0x5D#8] 0xFF#8)).isSome = true ∧
      (after (bwdAt [] 0#8)).isSome = true := by decide

theorem test_witness_IdleScanCursorIsUnobservable : SameButIdleSc State.reset { State.reset with sc := 0x05#8 } ∧
    run 1 State.reset = .next { State.reset with ic := 0#8, phase := .halted } ∧ run 2 State.reset = .fault .halted :=
  ⟨⟨rfl, fun h => by rcases h with h | h <;> cases h⟩, rfl, rfl⟩

theorem test_witness_EveryStepKeepsInvariant :
    Inv { blockAt [0x2D#8] 0xFF#8 with tape := [(3, 7#8)] } ∧ (after { blockAt [0x2D#8] 0xFF#8 with tape := [(3, 7#8)] }).isSome = true := by
  decide

theorem test_witness_EveryHostMoveKeepsInvariant : Inv State.reset ∧ HeldInv State.reset :=
  ⟨by decide, nofun⟩

theorem test_witness_WellFormedStoreNeverFaults :
    AtReset State.reset ∧ StoreWF 0 State.reset.pstore ∧ WfInv 0 State.reset ∧ (after State.reset).isSome = true ∧
      WfInv 2 { fwdAt [0x5B#8, 0x5D#8] 0x00#8 with ic := 0x00#8 } ∧
      (after { fwdAt [0x5B#8, 0x5D#8] 0x00#8 with ic := 0x00#8 }).map State.phase = some .running :=
  ⟨test_atReset, test_storeWF.2, ⟨test_storeWF.2, by decide, by decide⟩, by decide,
    ⟨test_storeWF_loop, by decide, by decide⟩, by decide⟩

theorem test_witness_PackingIsHighByteFirst : 2 * 1 < [0x2B#8, 0x2B#8, 0x2B#8].length ∧ ([0x2B2E#16] : List (BitVec 16))[0]? = some 0x2B2E#16 := by
  decide

theorem test_witness_PackerImagesAreWellFormed : packText [']'] = some [0x5D#8, 0x00#8] ∧ ([']'] : List Char)[0]? = some ']' := by
  decide

theorem test_witness_LoadedProgramDecodesToItself :
    ([.inc, .brnz] : List Instr).length ≤ Config.maxProg ∧ ([.inc, .brnz] : List Instr)[1]? = some .brnz ∧
      Instr.halt ∉ ([.inc, .brnz] : List Instr) := by decide

theorem test_witness_CanonicalMemoryIsUnique : Memory.wf [(0, 1#8), (255, 2#8)] := by decide

end Sys2Proof.Tests
end

section
/-! SUPPORT. The decoder as the encoder's inverse: which byte a decoded instruction came from (30_encoding.md R81, R82). -/

namespace Sys2Proof

/-- A byte decodes to an instruction exactly where it is that instruction's byte. -/
theorem decode_eq_known_iff {b : Byte} {i : Instr} : decode b = .known i ↔ b = encode i := by
  constructor
  · intro h
    have hrow : (b, i) ∈ opcodeMap := decode_known_cases h
    cases i <;> simpa [opcodeMap, encode] using hrow
  · rintro rfl
    cases i <;> rfl

end Sys2Proof
end

section
/-! SUPPORT. Reset: what asserting `rst` writes (10_state.md R34) and what it leaves. -/

namespace Sys2Proof.Safety

open Sys2Proof.Machine

theorem atReset_reset : AtReset State.reset := ⟨fun _ => rfl, rfl, rfl, rfl, rfl, rfl, rfl⟩

theorem atReset_assertRst (s : State) : AtReset (hostMove .assertRst s) := ⟨fun _ => rfl, rfl, rfl, rfl, rfl, rfl, rfl⟩

@[simp] theorem assertRst_pstore (s : State) : (hostMove .assertRst s).pstore = s.pstore := rfl

/-- Settles O1: the reset state and every assertion of `rst` have R34's values, and `P` is kept. -/
theorem resetGivesSpecValues : Obligations.ResetGivesSpecValues :=
  ⟨atReset_reset, fun s => ⟨atReset_assertRst s, assertRst_pstore s⟩⟩

end Sys2Proof.Safety
end

section
/-! SUPPORT. Who writes the output trace (10_state.md R30). -/

namespace Sys2Proof.Machine

/-- A handler's whole effect on the trace: OUT appends the current cell, no other handler writes it (R140). -/
theorem exec_out_field {i : Instr} {s t : State} (h : exec i s = .next t) :
    t.out = if i = .out then s.out ++ [cell s] else s.out := by
  obtain ⟨rfl, rfl⟩ | ⟨rfl, rfl⟩ | ⟨rfl, rfl⟩ | ⟨rfl, rfl⟩ | ⟨rfl, rfl⟩ | ⟨rfl, v, -, rfl⟩ | ⟨rfl, -, rfl⟩ |
    ⟨rfl, -, rfl⟩ | ⟨rfl, -, rfl⟩ | ⟨rfl, -, rfl⟩ | ⟨rfl, rfl⟩ := exec_cases h <;> simp

@[simp] theorem scanCompare_out (s : State) (bracket : Byte) : (scanCompare s bracket).out = s.out := by
  obtain ⟨-, h⟩ | ⟨-, h⟩ := scanCompare_cases s bracket <;> rw [h]

/-- A step's whole effect on the trace: a RUNNING step that executes `.` appends the current cell. -/
theorem step_out_field {s t : State} (h : step s = .next t) :
    t.out = if s.phase = .running ∧ fetchByte s (s.ic + 1#8) = 0x2E#8 then s.out ++ [memRead s s.dc] else s.out := by
  obtain ⟨-, ⟨hp, i, hd, he⟩ | ⟨-, hd, rfl⟩ | ⟨hp, rfl⟩ | ⟨hp, hs⟩⟩ := step_cases h
  case inl =>
    have hbyte : fetchByte s (s.ic + 1#8) = 0x2E#8 ↔ i = .out := by
      rw [decode_eq_known_iff.mp hd]; cases i <;> decide
    have hout := exec_out_field he
    simpa [hp, hbyte, cell, memRead] using hout
  case inr.inl =>
    have hbyte : fetchByte s (s.ic + 1#8) ≠ 0x2E#8 := fun hb => by
      have hout : decode (fetchByte s (s.ic + 1#8)) = .known .out := decode_eq_known_iff.mpr hb
      simp [hout] at hd
    simp [hbyte]
  case inr.inr.inl => simp [hp, scanFwdStep]
  case inr.inr.inr =>
    cases hs
    simp [hp]

/-- Of the host's moves, asserting `rst` alone writes the trace, to empty. -/
theorem hostMove_out (m : HostMove) (s : State) :
    (hostMove m s).out = if m = .assertRst then [] else s.out := by
  cases m with
  | assertRst => rfl
  | load image => simp only [hostMove]; split <;> rfl
  | releaseRst | answer v | setNext p => rfl

end Sys2Proof.Machine
end

section
/-! SUPPORT. The block never reads the output trace (10_state.md R30): every step commutes with putting bytes before it. -/

namespace Sys2Proof.Machine

/-- The state with the bytes `o` put before what it has emitted. -/
def State.prependOut (o : List Byte) (s : State) : State := { s with out := o ++ s.out }

/-- The outcome with `f` applied to its next state, if it has one; stops are kept. -/
def mapNext (f : State → State) (r : Host.Outcome State Fault Refusal) : Host.Outcome State Fault Refusal :=
  match r with
  | .next t => .next (f t)
  | .fault e => .fault e
  | .refused e => .refused e

@[simp] theorem mapNext_next (f : State → State) (t : State) : mapNext f (.next t) = .next (f t) := rfl
@[simp] theorem mapNext_fault (f : State → State) (e : Fault) : mapNext f (.fault e) = .fault e := rfl
@[simp] theorem mapNext_refused (f : State → State) (e : Refusal) : mapNext f (.refused e) = .refused e := rfl

section

variable (o : List Byte) (s : State)

@[simp] theorem State.prependOut_rst : (s.prependOut o).rst = s.rst := rfl
@[simp] theorem State.prependOut_phase : (s.prependOut o).phase = s.phase := rfl
@[simp] theorem State.prependOut_ic : (s.prependOut o).ic = s.ic := rfl
@[simp] theorem State.prependOut_sc : (s.prependOut o).sc = s.sc := rfl
@[simp] theorem State.prependOut_setIc (v : Byte) : (s.prependOut o).setIc v = (s.setIc v).prependOut o := rfl
@[simp] theorem State.prependOut_setSc (v : Byte) : (s.prependOut o).setSc v = (s.setSc v).prependOut o := rfl
@[simp] theorem State.prependOut_setPhase (p : Phase) :
    (s.prependOut o).setPhase p = (s.setPhase p).prependOut o := rfl
@[simp] theorem fetchByte_prependOut (a : Byte) : fetchByte (s.prependOut o) a = fetchByte s a := rfl
@[simp] theorem hostByte_prependOut : hostByte (s.prependOut o) = hostByte s := rfl
@[simp] theorem cellIsZero_prependOut : cellIsZero (s.prependOut o) = cellIsZero s := rfl

/-- A handler commutes with bytes put before the trace; for OUT, because appending is associative. -/
theorem exec_prependOut (i : Instr) : exec i (s.prependOut o) = mapNext (State.prependOut o) (exec i s) := by
  cases i with
  | incp | decp | inc | dec | halt => rfl
  | out => simp [exec, execOut, emit, State.setOut, State.prependOut, cell, memRead]
  | inp =>
    cases hv : hostByte s with
    | some v => rw [exec_inp_some hv, exec_inp_some ((hostByte_prependOut o s).trans hv)]; rfl
    | none => rw [exec_inp_none hv, exec_inp_none ((hostByte_prependOut o s).trans hv)]; rfl
  | brz => cases hz : cellIsZero s <;> simp [exec, execBrz, hz]
  | brnz => cases hz : cellIsZero s <;> simp [exec, execBrnz, hz]

theorem runningStep_prependOut :
    runningStep (s.prependOut o) = mapNext (State.prependOut o) (runningStep s) := by
  simp only [runningStep, fetch_eq, State.prependOut_ic, State.prependOut_setIc, fetchByte_prependOut]
  split
  · exact exec_prependOut o _ _
  · rfl

theorem scanCompare_prependOut (bracket : Byte) :
    scanCompare (s.prependOut o) bracket = (scanCompare s bracket).prependOut o := by
  by_cases hb : fetchByte s s.sc = bracket <;> simp [scanCompare, hb]

/-- A step commutes with bytes put before the trace: same next state, same stop. -/
theorem step_prependOut : step (s.prependOut o) = mapNext (State.prependOut o) (step s) := by
  cases hr : s.rst with
  | true => simp [step, hr]
  | false =>
    cases hp : s.phase with
    | running =>
      rw [step_running hr hp, step_running (s := s.prependOut o) hr hp]
      exact runningStep_prependOut o s
    | scanFwd =>
      rw [step_scanFwd hr hp, step_scanFwd (s := s.prependOut o) hr hp]
      exact congrArg _ (scanCompare_prependOut o (s.setSc _) _)
    | scanBwd =>
      rw [step_scanBwd hr hp, step_scanBwd (s := s.prependOut o) hr hp]
      exact congrArg _ (scanCompare_prependOut o (s.setSc _) _)
    | halted | faulted => simp [step, hr, hp]

end

end Sys2Proof.Machine

namespace Sys2Proof.Safety

open Sys2Proof.Machine

/-- A run of any length commutes with bytes put before the trace. -/
theorem run_prependOut (o : List Byte) (n : Nat) (s : State) :
    run n (s.prependOut o) = mapNext (State.prependOut o) (run n s) := by
  induction n generalizing s with
  | zero => rfl
  | succ n ih =>
    rw [run_succ, run_succ, step_prependOut]
    cases step s with
    | next t => exact ih t
    | fault e => rfl
    | refused e => rfl

/-- Settles O27: the one writer and reset from the step's and the host's effect on the trace; that the block never reads
it, from the run that commutes with bytes put before it. -/
theorem outputTraceIsWriteOnly : Obligations.OutputTraceIsWriteOnly := by
  refine ⟨fun s t => step_out_field, hostMove_out, fun n s o => ⟨fun t h => ?_, fun r h => ?_⟩⟩
  · exact (run_prependOut o n s).trans (by rw [h]; rfl)
  · exact (run_prependOut o n s).trans (by rw [h]; rfl)

end Sys2Proof.Safety
end

section
/-! SUPPORT. A RUNNING step over a byte that decodes to an instruction, and the host's answer to a waiting `,`
(20_memory.md R67, 40_dispatch.md R101). -/

namespace Sys2Proof.Safety

open Sys2Proof.Machine

/-- A step that fetches an instruction's byte is that instruction's handler, with `ic` at its offset (R100, R101). -/
theorem step_of_fetches {s : State} {b : Byte} {i : Instr} (h : Fetches s b) (hd : decode b = .known i) :
    step s = exec i (s.setIc (s.ic + 1#8)) := by
  obtain ⟨hr, hp, hb⟩ := h
  rw [step_running hr hp]
  simp [runningStep, hb, hd]

/-- The host's answer changes nothing that the fetch depends on. -/
theorem fetches_answer {s : State} {b : Byte} (v : Byte) (h : Fetches s b) : Fetches (hostMove (.answer v) s) b := h

/-- Where the host had not answered, its answer is the byte the block takes next. -/
theorem hostByte_answer {s : State} (v : Byte) (h : hostByte s = none) : hostByte (hostMove (.answer v) s) = some v := by
  obtain ⟨w, rest, -, hw, -⟩ | ⟨-, -, hw, -⟩ | ⟨hnil, -, -⟩ := hostByte_cases s
  · simp [hw] at h
  · simp [hw] at h
  · simp [hostMove, hostByte, hnil]

/-- A step at a `,` the host has not answered: no next state (R67). -/
theorem step_inp_none {s : State} (hf : Fetches s 0x2C#8) (h : hostByte s = none) : step s = .fault .awaitingInput :=
  (step_of_fetches hf rfl).trans (exec_inp_none h)

/-- A step at a `,` the host has answered with `v`: the fetch, the answer taken, `v` in the current cell (R141). -/
theorem step_inp_some {s : State} {v : Byte} (hf : Fetches s 0x2C#8) (h : hostByte s = some v) :
    step s = .next (setCell (takeHostByte (s.setIc (s.ic + 1#8))) v) :=
  (step_of_fetches hf rfl).trans (exec_inp_some h)

/-- Settles O25: without an answer the step stops in RUNNING; any answer `v` is then the byte the `,` takes and writes. -/
theorem hostMayAnswerAnyByteOrNever : Obligations.HostMayAnswerAnyByteOrNever := by
  intro s hf hnone
  have hp : s.phase = .running := hf.2.1
  refine ⟨by simp [step_inp_none hf hnone], by simp [hp], by simp [hp], fun v => ?_⟩
  refine ⟨_, step_inp_some (fetches_answer v hf) (hostByte_answer v hnone), ?_, rfl, hp⟩
  exact (setCell_read _ v s.dc).trans (if_pos rfl)

end Sys2Proof.Safety
end

section
/-! SUPPORT. The opcode table as a set of rows: distinct bytes, so that the order of the comparisons changes nothing
(30_encoding.md R82, R83). -/

namespace Sys2Proof

/-- The nine byte values of the map are distinct (R83). -/
theorem opcodeMap_bytes_nodup : (opcodeMap.map Prod.fst).Nodup := by decide

/-- Where no two rows share a byte, two rows with the same byte are the same row. -/
theorem instr_unique_of_nodup {rows : List (Byte × Instr)} (hn : (rows.map Prod.fst).Nodup) {b : Byte} {i j : Instr}
    (hi : (b, i) ∈ rows) (hj : (b, j) ∈ rows) : i = j :=
  congrArg Prod.snd (List.inj_on_of_nodup_map hn hi hj rfl)

/-- Where no two rows share a byte, a row decides what its byte decodes to, wherever it stands. -/
theorem decodeIn_of_mem {rows : List (Byte × Instr)} (hn : (rows.map Prod.fst).Nodup) {b : Byte} {i : Instr}
    (hi : (b, i) ∈ rows) : decodeIn rows b = .known i := by
  obtain ⟨j, hj, hd⟩ | ⟨hnone, -⟩ := decodeIn_cases rows b
  · rw [hd, instr_unique_of_nodup hn hi hj]
  · exact absurd rfl (hnone _ hi)

/-- A byte that no row holds decodes to Unknown of itself. -/
theorem decodeIn_of_forall_ne {rows : List (Byte × Instr)} {b : Byte} (h : ∀ row ∈ rows, row.1 ≠ b) :
    decodeIn rows b = .unknown b := by
  obtain ⟨i, hi, -⟩ | ⟨-, hd⟩ := decodeIn_cases rows b
  · exact absurd rfl (h _ hi)
  · exact hd

/-- First-match decoding does not depend on the order of rows with distinct bytes. -/
theorem decodeIn_perm {rows rows' : List (Byte × Instr)} (hp : rows.Perm rows') (hn : (rows'.map Prod.fst).Nodup)
    (b : Byte) : decodeIn rows b = decodeIn rows' b := by
  obtain ⟨i, hi, hd⟩ | ⟨hnone, hd⟩ := decodeIn_cases rows b
  · rw [hd, decodeIn_of_mem hn (hp.mem_iff.mp hi)]
  · rw [hd, decodeIn_of_forall_ne fun row hrow => hnone row (hp.mem_iff.mpr hrow)]

/-- Settles O10: the map's bytes are distinct, so that a byte has one row in it, the same in every order of the rows. -/
theorem dispatchOrderChangesNothing : Obligations.DispatchOrderChangesNothing :=
  ⟨fun _ _ _ hi hj => instr_unique_of_nodup opcodeMap_bytes_nodup hi hj,
    fun _ hp b => decodeIn_perm hp opcodeMap_bytes_nodup b⟩

/-- Settles O9: each of the nine bytes is its instruction's encoding, and a byte outside the map's bytes meets no row. -/
theorem decodeIsTheOpcodeTable : Obligations.DecodeIsTheOpcodeTable := by
  have hknown (i : Instr) : decode (encode i) = .known i := decode_eq_known_iff.mpr rfl
  refine ⟨hknown .incp, hknown .decp, hknown .inc, hknown .dec, hknown .out, hknown .inp, hknown .brz, hknown .brnz,
    hknown .halt, fun b hb => decodeIn_of_forall_ne fun row hrow heq => ?_⟩
  exact hb (heq ▸ List.mem_map_of_mem (f := Prod.fst) hrow)

end Sys2Proof
end

section
/-! SUPPORT. The storage packing (30_encoding.md R88, R89): the units of a byte list, the bytes of a unit list, and what a
store loaded from them reads. -/

namespace Sys2Proof.Machine

@[simp] theorem concat8_high (a b : Byte) : (concat8 a b).extractLsb' 8 8 = a := BitVec.extractLsb'_append_eq_left

@[simp] theorem concat8_low (a b : Byte) : (concat8 a b).extractLsb' 0 8 = b := BitVec.extractLsb'_append_eq_right

theorem packUnits_length (bs : List Byte) : (packUnits bs).length = (bs.length + 1) / 2 := by
  induction bs using packUnits.induct with
  | case1 | case2 b => simp [packUnits]
  | case3 b c rest ih => simp only [packUnits, List.length_cons, ih]; omega

/-- Unit `w` holds byte `2w` in its high half and byte `2w + 1`, or the padding, in its low half. -/
theorem packUnits_getElem? {bs : List Byte} {w : Nat} (h : 2 * w < bs.length) :
    (packUnits bs)[w]? = some (concat8 (bs.getD (2 * w) 0x00#8) (bs.getD (2 * w + 1) 0x00#8)) := by
  induction bs using packUnits.induct generalizing w with
  | case1 => simp at h
  | case2 b =>
    obtain rfl : w = 0 := by simp only [List.length_singleton] at h; omega
    rfl
  | case3 b c rest ih =>
    cases w with
    | zero => rfl
    | succ w => exact ih (by simp only [List.length_cons] at h; omega)

/-- Unit `w` is unpacked to offsets `2w`, its high half, and `2w + 1`, its low half. -/
theorem unpackUnits_getElem? {us : List (BitVec 16)} {w : Nat} {u : BitVec 16} (h : us[w]? = some u) :
    (unpackUnits us)[2 * w]? = some (u.extractLsb' 8 8) ∧
      (unpackUnits us)[2 * w + 1]? = some (u.extractLsb' 0 8) := by
  induction us generalizing w with
  | nil => simp at h
  | cons v rest ih =>
    cases w with
    | zero =>
      obtain rfl : v = u := by simpa using h
      exact ⟨rfl, rfl⟩
    | succ w => exact ih h

/-- Unpacking gives the packed bytes back, and the one byte of padding after an odd last byte. -/
theorem unpackUnits_packUnits (bs : List Byte) :
    unpackUnits (packUnits bs) = bs ++ List.replicate (bs.length % 2) 0x00#8 := by
  induction bs using packUnits.induct with
  | case1 => rfl
  | case2 b => simp [packUnits, unpackUnits]
  | case3 b c rest ih =>
    have hparity : (rest.length + 1 + 1) % 2 = rest.length % 2 := by omega
    simp [packUnits, unpackUnits, ih, hparity]

theorem Memory.ofBytesFrom_zeros (a n : Nat) : Memory.ofBytesFrom a (List.replicate n 0x00#8) = [] := by
  induction n generalizing a with
  | zero => rfl
  | succ n ih => exact ih (a + 1)

theorem Memory.ofBytesFrom_append_zeros (a : Nat) (bs : List Byte) (n : Nat) :
    Memory.ofBytesFrom a (bs ++ List.replicate n 0x00#8) = Memory.ofBytesFrom a bs := by
  induction bs generalizing a with
  | nil => exact Memory.ofBytesFrom_zeros a n
  | cons b rest ih => simp only [List.cons_append, Memory.ofBytesFrom, ih]

/-- Zeros after an image change nothing in the store it is loaded to (R27). -/
theorem Memory.ofBytes_append_zeros (bs : List Byte) (n : Nat) :
    Memory.ofBytes (bs ++ List.replicate n 0x00#8) = Memory.ofBytes bs := by
  simp only [Memory.ofBytes, List.take_append, List.take_replicate, Memory.ofBytesFrom_append_zeros]

/-- A list packed, unpacked and loaded is the store of the list itself. -/
theorem Memory.ofBytes_unpackUnits_packUnits (bs : List Byte) :
    Memory.ofBytes (unpackUnits (packUnits bs)) = Memory.ofBytes bs := by
  rw [unpackUnits_packUnits, Memory.ofBytes_append_zeros]

/-- A program's store reads its command bytes, and `0x00`, the terminator and the padding, from there on (R89). -/
theorem Memory.read_ofBytes_programBytes (cmds : List Byte) {a : Nat} (ha : a < 256) :
    Memory.read (Memory.ofBytes (programBytes cmds)) a = cmds.getD a 0x00#8 := by
  have hstore : Memory.ofBytes (programBytes cmds) = Memory.ofBytes cmds := Memory.ofBytes_append_zeros cmds 1
  rw [hstore, Memory.read_ofBytes cmds a ha]

/-- Settles O48: the layout both ways, the round trip through the store up to zero padding, and the rule's own example. -/
theorem packingIsHighByteFirst : Obligations.PackingIsHighByteFirst := by
  refine ⟨fun _ _ => packUnits_getElem?, fun _ _ _ => unpackUnits_getElem?,
    fun bs => ⟨packUnits_length bs, Memory.ofBytes_unpackUnits_packUnits bs⟩, fun cmds a ha => ?_, by decide⟩
  rw [Memory.ofBytes_unpackUnits_packUnits, Memory.read_ofBytes_programBytes cmds ha]

end Sys2Proof.Machine
end

section
/-! SUPPORT. The packer at its interface (30_encoding.md R90, R91): which texts it accepts and what their images hold. -/

namespace Sys2Proof.Machine

/-- The character column of the opcode table beside its bytes (R81). -/
def charRows : List (Char × Byte) :=
  [ ('>', 0x3E#8), ('<', 0x3C#8), ('+', 0x2B#8), ('-', 0x2D#8), ('.', 0x2E#8), (',', 0x2C#8), ('[', 0x5B#8),
    (']', 0x5D#8) ]

/-- `charByte` is the lookup in the character column. -/
theorem charByte_eq_some_iff {c : Char} {b : Byte} : charByte c = some b ↔ (c, b) ∈ charRows := by
  constructor
  · intro h
    unfold charByte at h
    split_ifs at h <;> simp_all [charRows]
  · have hrows : ∀ row ∈ charRows, charByte row.1 = some row.2 := by decide
    exact hrows (c, b)

/-- The byte of a character is one of the eight command bytes (R35). -/
theorem isCommandByte_of_charByte {c : Char} {b : Byte} (h : charByte c = some b) : isCommandByte b = true := by
  have hrows : ∀ row ∈ charRows, isCommandByte row.2 = true := by decide
  exact hrows (c, b) (charByte_eq_some_iff.mp h)

/-- A character has a byte exactly where it is one of the eight. -/
theorem exists_charByte_iff {c : Char} :
    (∃ b, charByte c = some b) ↔ c ∈ ['>', '<', '+', '-', '.', ',', '[', ']'] := by
  have hchars : charRows.map Prod.fst = ['>', '<', '+', '-', '.', ',', '[', ']'] := rfl
  simp [charByte_eq_some_iff, ← hchars]

/-- A text has bytes where its first character and the rest of it have, and they are those bytes in order. -/
theorem textBytes_cons_eq_some_iff {c : Char} {rest : List Char} {bs : List Byte} :
    textBytes (c :: rest) = some bs ↔
      ∃ b tail, charByte c = some b ∧ textBytes rest = some tail ∧ b :: tail = bs := by
  simp only [textBytes]
  split
  case h_1 b tail hb htail => simp [hb, htail]
  case h_2 hnone =>
    simp only [reduceCtorEq, false_iff]
    rintro ⟨b, tail, hb, htail, -⟩
    exact hnone b tail hb htail

/-- A text's bytes are its characters' bytes, in order. -/
theorem textBytes_eq_some_iff {text : List Char} {bs : List Byte} :
    textBytes text = some bs ↔ bs.map some = text.map charByte := by
  induction text generalizing bs with
  | nil => simp [textBytes]
  | cons c rest ih =>
    rw [textBytes_cons_eq_some_iff, List.map_cons, List.map_eq_cons_iff]
    simp only [ih]
    constructor
    · rintro ⟨b, tail, hb, htail, rfl⟩
      exact ⟨b, tail, rfl, hb.symm, htail⟩
    · rintro ⟨b, tail, rfl, hb, htail⟩
      exact ⟨b, tail, hb.symm, htail, rfl⟩

/-- A text has bytes exactly where each of its characters has one. -/
theorem exists_textBytes_iff {text : List Char} :
    (∃ bs, textBytes text = some bs) ↔ ∀ c ∈ text, ∃ b, charByte c = some b := by
  have hrange := Set.ext_iff.mp (Set.range_list_map (some : Byte → Option Byte)) (text.map charByte)
  simpa only [textBytes_eq_some_iff, Set.mem_range, Set.mem_ofPred_eq, List.forall_mem_map,
    eq_comm (a := charByte _)] using hrange

theorem textBytes_length {text : List Char} {bs : List Byte} (h : textBytes text = some bs) :
    bs.length = text.length := by
  simpa using congrArg List.length (textBytes_eq_some_iff.mp h)

theorem textBytes_getElem? {text : List Char} {bs : List Byte} (h : textBytes text = some bs) {i : Nat} {c : Char}
    (hc : text[i]? = some c) : bs[i]? = charByte c := by
  have hi : (bs.map some)[i]? = some (charByte c) := by rw [textBytes_eq_some_iff.mp h]; simp [hc]
  obtain ⟨b, hb, hcb⟩ : ∃ b, bs[i]? = some b ∧ some b = charByte c := by simpa using hi
  rw [hb, hcb]

theorem isCommandByte_of_mem_textBytes {text : List Char} {bs : List Byte} (h : textBytes text = some bs) {b : Byte}
    (hb : b ∈ bs) : isCommandByte b = true := by
  have hmem : some b ∈ text.map charByte := textBytes_eq_some_iff.mp h ▸ List.mem_map_of_mem hb
  obtain ⟨c, -, hc⟩ := List.mem_map.mp hmem
  exact isCommandByte_of_charByte hc

/-- The packer's answer is the program bytes of a text that has bytes, at most MAX_PROG of them (R91). -/
theorem packText_eq_some_iff {text : List Char} {image : List Byte} :
    packText text = some image ↔
      ∃ bs, textBytes text = some bs ∧ bs.length ≤ Config.maxProg ∧ programBytes bs = image := by
  unfold packText
  cases textBytes text <;> simp

/-- The packer accepts the texts over the eight characters of length at most MAX_PROG. -/
theorem exists_packText_iff {text : List Char} :
    (∃ image, packText text = some image) ↔
      text.length ≤ Config.maxProg ∧ ∀ c ∈ text, c ∈ ['>', '<', '+', '-', '.', ',', '[', ']'] := by
  simp only [← exists_charByte_iff, ← exists_textBytes_iff, packText_eq_some_iff]
  constructor
  · rintro ⟨image, bs, hbs, hlen, -⟩
    exact ⟨textBytes_length hbs ▸ hlen, bs, hbs⟩
  · rintro ⟨hlen, bs, hbs⟩
    exact ⟨programBytes bs, bs, hbs, (textBytes_length hbs).trans_le hlen, rfl⟩

end Sys2Proof.Machine

namespace Sys2Proof.Safety

open Sys2Proof.Machine

/-- At most MAX_PROG command bytes, terminated and loaded, are a well-formed store (R35). -/
theorem storeWF_programBytes {cmds : List Byte} (hlen : cmds.length ≤ Config.maxProg)
    (hcmds : ∀ b ∈ cmds, isCommandByte b = true) : StoreWF cmds.length (Memory.ofBytes (programBytes cmds)) := by
  refine ⟨hlen, fun a ha => ?_⟩
  rw [Memory.read_ofBytes_programBytes cmds ha]
  split
  · rename_i hlt
    rw [List.getD_eq_getElem _ _ hlt]
    exact hcmds _ (List.getElem_mem hlt)
  · rename_i hge
    exact List.getD_eq_default _ _ (by omega)

/-- Settles O49: the packer's domain from its two checks, and its images from the bytes of the text. -/
theorem packerImagesAreWellFormed : Obligations.PackerImagesAreWellFormed := by
  refine ⟨⟨rfl, rfl, rfl, rfl, rfl, rfl, rfl, rfl⟩, fun text => ⟨exists_packText_iff, fun image himage => ?_⟩⟩
  obtain ⟨bs, hbs, hlen, rfl⟩ := packText_eq_some_iff.mp himage
  rw [← textBytes_length hbs]
  refine ⟨by simp [programBytes], by simp [programBytes, Config.term], fun i c hc => ?_,
    storeWF_programBytes hlen fun b => isCommandByte_of_mem_textBytes hbs⟩
  obtain ⟨hi, -⟩ := List.getElem?_eq_some_iff.mp hc
  rw [programBytes, List.getElem?_append_left (by rwa [textBytes_length hbs]), textBytes_getElem? hbs hc]

end Sys2Proof.Safety
end

section
/-! SUPPORT. A RUNNING step as fetch, decode and handler or fault (40_dispatch.md R101, R106), and the bytes of a
well-formed store as instructions (10_state.md R35). -/

namespace Sys2Proof

/-- Every instruction's byte decodes to that instruction (R81, R82). -/
@[simp] theorem decode_encode (i : Instr) : decode (encode i) = .known i := decode_eq_known_iff.mpr rfl

end Sys2Proof

namespace Sys2Proof.Safety

open Sys2Proof.Machine

/-- A RUNNING step that fetches an unknown byte raises IllegalInstruction at the advanced `ic` (R106). -/
theorem step_of_unknown {s : State} {b : Byte} (hr : s.rst = false) (hp : s.phase = .running)
    (hd : decode (fetchByte s (s.ic + 1#8)) = .unknown b) :
    step s = .next (raiseIllegalInstruction (s.setIc (s.ic + 1#8)) b) := by
  rw [step_running hr hp]
  simp [runningStep, hd]

/-- Settles O8: a known byte runs its handler after the fetch, an unknown one raises the fault. -/
theorem stepRunsDecodedInstruction : Obligations.StepRunsDecodedInstruction :=
  fun _ hr hp => ⟨fun _ hd => step_of_fetches ⟨hr, hp, rfl⟩ hd, fun _ hd => step_of_unknown hr hp hd⟩

/-- Each of the eight command bytes is an instruction's byte (R35, R81). -/
theorem decode_of_isCommandByte {b : Byte} (h : isCommandByte b = true) : ∃ i, decode b = .known i := by
  have hmem : b ∈ [Instr.incp, .decp, .inc, .dec, .out, .inp, .brz, .brnz].map encode := List.contains_iff_mem.mp h
  obtain ⟨i, -, rfl⟩ := List.mem_map.mp hmem
  exact ⟨i, decode_encode i⟩

/-- Every offset of a well-formed store holds an instruction: a command byte, or the terminator past them (R35). -/
theorem decode_of_storeWF {n : Nat} {P : Memory} (h : StoreWF n P) {a : Nat} (ha : a < 256) :
    ∃ i, decode (Memory.read P a) = .known i := by
  have hbyte := h.2 a ha
  split at hbyte
  · exact decode_of_isCommandByte hbyte
  · exact ⟨.halt, decode_eq_known_iff.mpr hbyte⟩

/-- Settles O12: the fault carries the byte fetched and writes the record and the phase; a well-formed store holds
instructions alone, so that no byte of it is unknown. -/
theorem unknownByteRaisesIllegalInstruction : Obligations.UnknownByteRaisesIllegalInstruction := by
  refine ⟨fun s b hr hp hd => ⟨decode_unknown_byte hd, step_of_unknown hr hp hd⟩, fun n s a b hwf hd => ?_⟩
  obtain ⟨i, hi⟩ := decode_of_storeWF hwf a.isLt
  rw [fetchByte, hi] at hd
  cases hd

end Sys2Proof.Safety
end

section
/-! SUPPORT. The phase that a handler and a step leave (40_dispatch.md R102). -/

namespace Sys2Proof

/-- Two instructions with the same byte are the same instruction (R83). -/
@[simp] theorem encode_eq_encode_iff {i j : Instr} : encode i = encode j ↔ i = j := by
  rw [← decode_eq_known_iff, decode_encode, Decoded.known.injEq]

end Sys2Proof

namespace Sys2Proof.Machine

/-- A handler's whole effect on the phase: `[` at a zero cell, `]` at a non-zero cell and the terminator write it. -/
theorem exec_phase_field {i : Instr} {s t : State} (h : exec i s = .next t) :
    t.phase =
      if i = .brz ∧ cell s = 0x00#8 then .scanFwd
      else if i = .brnz ∧ cell s ≠ 0x00#8 then .scanBwd
      else if i = .halt then .halted
      else s.phase := by
  obtain ⟨rfl, rfl⟩ | ⟨rfl, rfl⟩ | ⟨rfl, rfl⟩ | ⟨rfl, rfl⟩ | ⟨rfl, rfl⟩ | ⟨rfl, v, -, rfl⟩ | ⟨rfl, hz, rfl⟩ |
    ⟨rfl, hz, rfl⟩ | ⟨rfl, hz, rfl⟩ | ⟨rfl, hz, rfl⟩ | ⟨rfl, rfl⟩ := exec_cases h <;> simp [*]

/-- The phase after a RUNNING step, by the instruction byte fetched and the current cell (R102). -/
theorem step_running_phase_field {s t : State} (hp : s.phase = .running) (h : step s = .next t) :
    t.phase =
      if fetchByte s (s.ic + 1#8) = encode .brz ∧ cell s = 0x00#8 then .scanFwd
      else if fetchByte s (s.ic + 1#8) = encode .brnz ∧ cell s ≠ 0x00#8 then .scanBwd
      else if fetchByte s (s.ic + 1#8) = encode .halt then .halted
      else if (decode (fetchByte s (s.ic + 1#8))).instr? = none then .faulted
      else .running := by
  obtain ⟨-, ⟨-, i, hd, he⟩ | ⟨-, hd, rfl⟩ | ⟨hscan, -⟩ | ⟨hscan, -⟩⟩ := step_cases h
  case inl =>
    have hphase := exec_phase_field he
    simpa [decode_eq_known_iff.mp hd, Decoded.instr?, hp, cell, memRead] using hphase
  case inr.inl =>
    have hne (i : Instr) : fetchByte s (s.ic + 1#8) ≠ encode i := fun hb => by
      simp [hb] at hd
    simp [hd, hne, Decoded.instr?]
  case inr.inr.inl => cases hp.symm.trans hscan
  case inr.inr.inr => cases hp.symm.trans hscan

/-- A forward-scan step leaves its own phase, or RUNNING where it stops (R152). -/
theorem scanFwdStep_phase (s : State) : (scanFwdStep s).phase = s.phase ∨ (scanFwdStep s).phase = .running := by
  obtain ⟨-, h⟩ | ⟨-, h⟩ := scanFwdStep_cases s
  · exact .inr (by rw [h])
  · exact .inl (by rw [h])

/-- A backward-scan step leaves its own phase, or RUNNING where it stops (R153). -/
theorem scanBwdStep_phase {s t : State} (h : scanBwdStep s = .next t) : t.phase = s.phase ∨ t.phase = .running := by
  obtain ⟨-, e⟩ | ⟨-, e⟩ := scanBwdStep_cases s <;> cases e.symm.trans h
  · exact .inr rfl
  · exact .inl rfl

/-- Settles O14: a RUNNING step by what its handler does to the phase, a scan step by whether it stops. -/
theorem fourEventsLeaveRunning : Obligations.FourEventsLeaveRunning := by
  refine ⟨fun s t hp h => step_running_phase_field hp h, fun s t hscan h => ?_⟩
  have hp : s.phase ≠ .running := by rintro hp; simp [hp] at hscan
  obtain ⟨-, ⟨hrun, -⟩ | ⟨hrun, -⟩ | ⟨-, rfl⟩ | ⟨-, hs⟩⟩ := step_cases h
  · exact absurd hrun hp
  · exact absurd hrun hp
  · exact scanFwdStep_phase s
  · exact scanBwdStep_phase hs

end Sys2Proof.Machine
end

section
/-! SUPPORT. Data-cursor movement (41_pointer.md): the two handlers, their steps, and two instructions in sequence. -/

namespace Sys2Proof.Machine

theorem exec_incp (s : State) : exec .incp s = .next (s.setDc (s.dc + 1#8)) := rfl

theorem exec_decp (s : State) : exec .decp s = .next (s.setDc (s.dc - 1#8)) := rfl

/-- Settles O16: the handler writes `dc` alone, and a byte's sum is the sum modulo 256. -/
theorem incpMovesRight : Obligations.IncpMovesRight := by
  refine ⟨rfl, fun s => ⟨_, exec_incp s, ?_, rfl⟩⟩
  rw [State.setDc_dc, BitVec.toNat_add]
  rfl

/-- Settles O17: the handler writes `dc` alone, and a byte's difference with 1 is its sum with 255 modulo 256. -/
theorem decpMovesLeft : Obligations.DecpMovesLeft := by
  refine ⟨rfl, fun s => ⟨_, exec_decp s, ?_, rfl⟩⟩
  rw [State.setDc_dc, BitVec.toNat_sub, Nat.add_comm]
  rfl

/-- The state after a step that fetches and writes `dc`: all that a step at `>` or `<` does. -/
def State.moveDc (s : State) (v : Byte) : State := (s.setIc (s.ic + 1#8)).setDc v

/-- Two moves, the second of which writes the starting `dc` back, advance `ic` by 2 and do nothing else. -/
theorem State.moveDc_restored (s : State) (v : Byte) : (s.moveDc v).moveDc s.dc = { s with ic := s.ic + 2#8 } := by
  have hic : s.ic + 1#8 + 1#8 = s.ic + 2#8 := BitVec.add_assoc s.ic 1#8 1#8
  rw [← hic]
  rfl

end Sys2Proof.Machine

namespace Sys2Proof.Safety

open Sys2Proof.Machine

/-- A step at a `>`: one cell right (R120). -/
theorem step_incp {s : State} (h : Fetches s 0x3E#8) : step s = .next (s.moveDc (s.dc + 1#8)) := step_of_fetches h rfl

/-- A step at a `<`: one cell left (R121). -/
theorem step_decp {s : State} (h : Fetches s 0x3C#8) : step s = .next (s.moveDc (s.dc - 1#8)) := step_of_fetches h rfl

/-- After a step that goes on in sequence in the same store, the next byte in sequence is fetched. -/
theorem fetches_following {s t : State} {b c : Byte} (h : Fetches s b) (hc : fetchByte s (s.ic + 2#8) = c)
    (hic : t.ic = s.ic + 1#8) (hstore : t.pstore = s.pstore) (hphase : t.phase = s.phase) (hrst : t.rst = s.rst) :
    Fetches t c := by
  obtain ⟨hr, hp, -⟩ := h
  have hnext : t.ic + 1#8 = s.ic + 2#8 := by rw [hic]; exact BitVec.add_assoc s.ic 1#8 1#8
  refine ⟨hrst.trans hr, hphase.trans hp, ?_⟩
  rwa [hnext, fetchByte, hstore]

theorem fetches_moveDc {s : State} {b c : Byte} (h : Fetches s b) (hc : fetchByte s (s.ic + 2#8) = c) (v : Byte) :
    Fetches (s.moveDc v) c :=
  fetches_following h hc rfl rfl rfl rfl

/-- Settles O18: either order moves `dc` twice, and the second move writes its starting value back (R122). -/
theorem pointerMovesUndoEachOther : Obligations.PointerMovesUndoEachOther := by
  rintro s (⟨h, hnext⟩ | ⟨h, hnext⟩)
  · calc
      run 2 s = .next ((s.moveDc (s.dc + 1#8)).moveDc (s.dc + 1#8 - 1#8)) :=
        (run_next (step_incp h) 1).trans (run_next (step_decp (fetches_moveDc h hnext _)) 0)
      _ = .next { s with ic := s.ic + 2#8 } := by rw [BitVec.add_sub_cancel, State.moveDc_restored]
  · calc
      run 2 s = .next ((s.moveDc (s.dc - 1#8)).moveDc (s.dc - 1#8 + 1#8)) :=
        (run_next (step_decp h) 1).trans (run_next (step_incp (fetches_moveDc h hnext _)) 0)
      _ = .next { s with ic := s.ic + 2#8 } := by rw [BitVec.sub_add_cancel, State.moveDc_restored]

end Sys2Proof.Safety
end

section
/-! SUPPORT. Cell arithmetic (42_cell.md): the two handlers, and what any number of `+` or `-` in sequence adds to the
current cell. -/

namespace Sys2Proof

/-- Adding a number's low byte to a byte adds the number modulo 256. -/
theorem toNat_add_ofNat_eq_mod (x : Byte) (k : Nat) : (x + BitVec.ofNat 8 k).toNat = (x.toNat + k) % 256 := by
  rw [BitVec.toNat_add, BitVec.toNat_ofNat, Nat.add_mod_mod]

end Sys2Proof

namespace Sys2Proof.Machine

theorem exec_inc (s : State) : exec .inc s = .next (setCell s (memRead s s.dc + 1#8)) := rfl

theorem exec_dec (s : State) : exec .dec s = .next (setCell s (memRead s s.dc - 1#8)) := rfl

/-- Writing the current cell, at every address of the tape. -/
theorem setCell_tape_read (s : State) (v : Byte) (a : Nat) :
    Memory.read (setCell s v).tape a = if a = s.dc.toNat then v else Memory.read s.tape a :=
  Memory.read_write s.tape s.dc.toNat v a

theorem setCell_read_self (s : State) (v : Byte) : memRead (setCell s v) s.dc = v :=
  (setCell_read s v s.dc).trans (if_pos rfl)

theorem setCell_tape_read_of_ne (s : State) (v : Byte) {a : Nat} (ha : a ≠ s.dc.toNat) :
    Memory.read (setCell s v).tape a = Memory.read s.tape a :=
  (setCell_tape_read s v a).trans (if_neg ha)

/-- Settles O19: the handler writes the current cell alone, and a byte's sum is the sum modulo 256. -/
theorem incAddsOneToCell : Obligations.IncAddsOneToCell := by
  refine ⟨rfl, fun s => ⟨_, exec_inc s, ?_, fun _ => setCell_tape_read_of_ne s _, setCell_eq s _⟩⟩
  rw [setCell_read_self]
  exact toNat_add_ofNat_eq_mod (memRead s s.dc) 1

/-- Settles O20: the handler writes the current cell alone, and a byte's difference with 1 is its sum with 255 modulo
256. -/
theorem decSubtractsOneFromCell : Obligations.DecSubtractsOneFromCell := by
  refine ⟨rfl, fun s => ⟨_, exec_dec s, ?_, fun _ => setCell_tape_read_of_ne s _, setCell_eq s _⟩⟩
  rw [setCell_read_self, BitVec.sub_eq_add_neg]
  exact toNat_add_ofNat_eq_mod (memRead s s.dc) 255

/-- `t` is `s` with `ic` advanced by `n` and `c` added to the current cell. The tape is compared by what its cells read,
since a run of no steps writes no cell. -/
def CellAdded (n c : Byte) (s t : State) : Prop :=
  t = { s with ic := s.ic + n, tape := t.tape } ∧
    ∀ a : Nat, Memory.read t.tape a = if a = s.dc.toNat then memRead s s.dc + c else Memory.read s.tape a

section

variable {n m c d : Byte} {s t u : State}

theorem CellAdded.dc_eq (h : CellAdded n c s t) : t.dc = s.dc := by rw [h.1]

theorem CellAdded.read_current (h : CellAdded n c s t) : memRead t s.dc = memRead s s.dc + c :=
  (h.2 s.dc.toNat).trans (if_pos rfl)

theorem CellAdded.read_of_ne (h : CellAdded n c s t) {a : Nat} (ha : a ≠ s.dc.toNat) :
    Memory.read t.tape a = Memory.read s.tape a :=
  (h.2 a).trans (if_neg ha)

/-- Adding 0 leaves every cell as it was. -/
theorem CellAdded.read_of_zero (h : CellAdded n 0#8 s t) (a : Nat) : Memory.read t.tape a = Memory.read s.tape a := by
  by_cases ha : a = s.dc.toNat
  · subst ha
    exact h.read_current.trans (BitVec.add_zero _)
  · exact h.read_of_ne ha

theorem CellAdded.refl (s : State) : CellAdded 0#8 0#8 s s := by
  refine ⟨by rw [BitVec.add_zero], fun a => ?_⟩
  split
  · next ha => rw [ha, BitVec.add_zero]; rfl
  · rfl

theorem CellAdded.trans (h : CellAdded n c s t) (h' : CellAdded m d t u) : CellAdded (n + m) (c + d) s u := by
  refine ⟨?_, fun a => ?_⟩
  · rw [h'.1, h.1, BitVec.add_assoc]
  · rw [h'.2 a, h.dc_eq, h.read_current, BitVec.add_assoc]
    split
    · rfl
    · next ha => exact h.read_of_ne ha

/-- A fetch and a write of the current cell plus `c`. -/
theorem cellAdded_setCell (s : State) (c : Byte) :
    CellAdded 1#8 c s (setCell (s.setIc (s.ic + 1#8)) (memRead s s.dc + c)) :=
  ⟨setCell_eq _ _, setCell_tape_read _ _⟩

end

end Sys2Proof.Machine

namespace Sys2Proof.Safety

open Sys2Proof.Machine

/-- A step at a `+` (R130). -/
theorem step_inc {s : State} (h : Fetches s 0x2B#8) :
    step s = .next (setCell (s.setIc (s.ic + 1#8)) (memRead s s.dc + 1#8)) := step_of_fetches h rfl

/-- A step at a `-` (R131). -/
theorem step_dec {s : State} (h : Fetches s 0x2D#8) :
    step s = .next (setCell (s.setIc (s.ic + 1#8)) (memRead s s.dc - 1#8)) := step_of_fetches h rfl

/-- The instruction of byte `b` adds `c` to the current cell. `+` and `-` are the two such, so that what follows is proved
once for both. -/
def AddsToCell (b c : Byte) : Prop := ∀ s, Fetches s b → ∃ t, step s = .next t ∧ CellAdded 1#8 c s t

theorem addsToCell_inc : AddsToCell 0x2B#8 1#8 := fun s h => ⟨_, step_inc h, cellAdded_setCell s 1#8⟩

theorem addsToCell_dec : AddsToCell 0x2D#8 (-1#8) := fun s h =>
  ⟨_, step_dec h, by rw [BitVec.sub_eq_add_neg]; exact cellAdded_setCell s (-1#8)⟩

/-- Additions to a cell leave the store and the phase, so that the fetch is the one that `s`'s store gives. -/
theorem fetches_of_cellAdded {n c b : Byte} {s t : State} (h : CellAdded n c s t) (hr : s.rst = false)
    (hp : s.phase = .running) (hb : fetchByte s (s.ic + (n + 1#8)) = b) : Fetches t b := by
  rw [h.1]
  refine ⟨hr, hp, ?_⟩
  rwa [← BitVec.add_assoc] at hb

/-- Two additions in sequence whose amounts cancel leave every cell as it was. -/
theorem run_two_of_addsToCell_cancel {b b' c c' : Byte} (hb : AddsToCell b c) (hb' : AddsToCell b' c')
    (hcancel : c + c' = 0#8) {s : State} (h : Fetches s b) (hnext : fetchByte s (s.ic + 2#8) = b') :
    ∃ t, run 2 s = .next t ∧ t = { s with ic := s.ic + 2#8, tape := t.tape } ∧
      ∀ a : Nat, Memory.read t.tape a = Memory.read s.tape a := by
  obtain ⟨t, hst, hadd⟩ := hb s h
  obtain ⟨hr, hp, -⟩ := h
  obtain ⟨u, htu, hadd'⟩ := hb' t (fetches_of_cellAdded hadd hr hp hnext)
  have hboth : CellAdded 2#8 0#8 s u := hcancel ▸ hadd.trans hadd'
  exact ⟨u, (run_next hst 1).trans (run_next htu 0), hboth.1, hboth.read_of_zero⟩

/-- `k` additions of `c` in sequence add `k` times `c`: induction on `k`, the last step taken off. -/
theorem run_of_addsToCell {b c : Byte} (hb : AddsToCell b c) (k : Nat) {s : State} (hr : s.rst = false)
    (hp : s.phase = .running) (hbytes : ∀ e : Nat, e < k → fetchByte s (s.ic + BitVec.ofNat 8 (e + 1)) = b) :
    ∃ t, run k s = .next t ∧ CellAdded (BitVec.ofNat 8 k) (BitVec.ofNat 8 k * c) s t := by
  induction k with
  | zero => exact ⟨s, rfl, by rw [BitVec.zero_mul]; exact CellAdded.refl s⟩
  | succ k ih =>
    obtain ⟨t, hrun, hadd⟩ := ih fun e he => hbytes e (by omega)
    have hlast : fetchByte s (s.ic + (BitVec.ofNat 8 k + 1#8)) = b := by
      rw [← BitVec.ofNat_add]
      exact hbytes k (by omega)
    obtain ⟨u, hstep, hadd'⟩ := hb t (fetches_of_cellAdded hadd hr hp hlast)
    refine ⟨u, (run_add hrun 1).trans (run_next hstep 0), ?_⟩
    have hsum : BitVec.ofNat 8 (k + 1) * c = BitVec.ofNat 8 k * c + c := by
      rw [BitVec.ofNat_add, BitVec.add_mul, BitVec.one_mul]
    rw [hsum, BitVec.ofNat_add]
    exact hadd.trans hadd'

/-- Settles O21: `+` adds 1 and `-` adds -1, which cancel in either order; `k` of one add `k` times its amount. -/
theorem cellArithmeticLaws : Obligations.CellArithmeticLaws := by
  refine ⟨?undo, fun k s hr hp hbytes => ?incs, fun k s hr hp hbytes => ?decs⟩
  case undo =>
    rintro s (⟨h, hnext⟩ | ⟨h, hnext⟩)
    · exact run_two_of_addsToCell_cancel addsToCell_inc addsToCell_dec rfl h hnext
    · exact run_two_of_addsToCell_cancel addsToCell_dec addsToCell_inc rfl h hnext
  case incs =>
    obtain ⟨t, hrun, hadd⟩ := run_of_addsToCell addsToCell_inc k hr hp hbytes
    refine ⟨t, hrun, hadd.1, ?_, fun _ => hadd.read_of_ne⟩
    rw [hadd.read_current, BitVec.mul_one, toNat_add_ofNat_eq_mod]
  case decs =>
    obtain ⟨t, hrun, hadd⟩ := run_of_addsToCell addsToCell_dec k hr hp hbytes
    refine ⟨t, hrun, hadd.1, ?_, fun _ => hadd.read_of_ne⟩
    have hback : memRead t s.dc + BitVec.ofNat 8 k = memRead s s.dc := by
      rw [hadd.read_current, BitVec.mul_neg, BitVec.mul_one, ← BitVec.sub_eq_add_neg, BitVec.sub_add_cancel]
    rw [← toNat_add_ofNat_eq_mod, hback]

end Sys2Proof.Safety
end

section
/-! SUPPORT. Input and output (43_io.md): what OUT emits, and the byte the host gives IN. -/

namespace Sys2Proof.Machine

theorem exec_out (s : State) : exec .out s = .next (s.setOut (s.out ++ [memRead s s.dc])) := rfl

/-- Settles O23: the handler writes the trace alone, so that the second OUT reads the same cell and appends its byte
again. -/
theorem outEmitsCell : Obligations.OutEmitsCell := by
  refine ⟨rfl, fun s => ⟨_, exec_out s, rfl, ?_⟩⟩
  have hcell (o : List Byte) : memRead (s.setOut o) (s.setOut o).dc = memRead s s.dc := rfl
  rw [exec_out, hcell, State.setOut_out, List.append_assoc]
  rfl

/-- The oldest listed answer is the byte the host gives (R67). -/
theorem hostByte_of_answers_cons {s : State} {v : Byte} {rest : List Byte} (h : s.answers = v :: rest) :
    hostByte s = some v := by
  simp [hostByte, h]

end Sys2Proof.Machine

namespace Sys2Proof.Safety

open Sys2Proof.Machine

/-- Settles O24: with an answer, IN takes it, which touches the host's side alone, and writes the current cell; without
one, neither the handler nor the step has a next state; a listed answer makes any byte the host's. -/
theorem inWritesHostByte : Obligations.InWritesHostByte := by
  refine ⟨rfl, fun s v hv => ?answered, fun s => exec_inp_none, fun s => step_inp_none, fun s v => ?anyByte⟩
  case answered =>
    refine ⟨_, exec_inp_some hv, ?cell, fun a ha => ?otherCell, ?frame⟩
    case cell => exact setCell_read_self (takeHostByte s) v
    case otherCell => exact setCell_tape_read_of_ne (takeHostByte s) v ha
    case frame => exact setCell_eq (takeHostByte s) v
  case anyByte => exact ⟨s.setAnswers [v], rfl, hostByte_of_answers_cons rfl⟩

end Sys2Proof.Safety
end

section
/-! SUPPORT. The two brackets' handlers (44_loop.md R150, R151), by the test of the current cell. -/

namespace Sys2Proof.Machine

theorem cellIsZero_iff {s : State} : cellIsZero s = true ↔ memRead s s.dc = 0x00#8 := beq_iff_eq

theorem exec_brz_zero {s : State} (h : memRead s s.dc = 0x00#8) :
    exec .brz s = .next { s with sc := s.ic, phase := .scanFwd } :=
  if_pos (cellIsZero_iff.mpr h)

theorem exec_brz_nonzero {s : State} (h : memRead s s.dc ≠ 0x00#8) : exec .brz s = .next s :=
  if_neg (mt cellIsZero_iff.mp h)

theorem exec_brnz_nonzero {s : State} (h : memRead s s.dc ≠ 0x00#8) :
    exec .brnz s = .next { s with sc := s.ic, phase := .scanBwd } :=
  if_neg (mt cellIsZero_iff.mp h)

theorem exec_brnz_zero {s : State} (h : memRead s s.dc = 0x00#8) : exec .brnz s = .next s :=
  if_pos (cellIsZero_iff.mpr h)

/-- Settles O28: the two sides of BRZ's test. -/
theorem brzScansForwardOnZero : Obligations.BrzScansForwardOnZero :=
  ⟨rfl, fun _ => ⟨exec_brz_zero, exec_brz_nonzero⟩⟩

/-- Settles O29: the two sides of BRNZ's test. -/
theorem brnzScansBackwardOnNonZero : Obligations.BrnzScansBackwardOnNonZero :=
  ⟨rfl, fun _ => ⟨exec_brnz_nonzero, exec_brnz_zero⟩⟩

end Sys2Proof.Machine
end

section
/-! SUPPORT. The two scans (44_loop.md R152, R153) as one scan with a direction, so that what follows is proved once for
both: the bytes it passes, the byte it stops at, and the bracket that starts it. -/

namespace Sys2Proof.Machine

/-- The direction of a scan: forward from a `[`, or backward from a `]`. -/
inductive ScanDir where
  | fwd
  | bwd

namespace ScanDir

/-- The phase of a scan in the direction. -/
def phase (x : ScanDir) : Phase :=
  match x with
  | .fwd => .scanFwd
  | .bwd => .scanBwd

/-- The byte whose execution starts a scan in the direction. -/
def startByte (x : ScanDir) : Byte :=
  match x with
  | .fwd => 0x5B#8
  | .bwd => 0x5D#8

/-- The byte at which a scan in the direction stops. -/
def stopByte (x : ScanDir) : Byte :=
  match x with
  | .fwd => 0x5D#8
  | .bwd => 0x5B#8

/-- The offset `e` scan steps from `c`, cyclically. -/
def offsetAt (x : ScanDir) (c : Byte) (e : Nat) : Byte :=
  match x with
  | .fwd => c + BitVec.ofNat 8 e
  | .bwd => c - BitVec.ofNat 8 e

/-- How many scan steps there are from `c` to `a`. -/
def dist (x : ScanDir) (c a : Byte) : Nat :=
  match x with
  | .fwd => (a - c).toNat
  | .bwd => (c - a).toNat

theorem phase_ne_running (x : ScanDir) : x.phase ≠ .running := by cases x <;> decide

theorem startByte_ne_stopByte (x : ScanDir) : x.startByte ≠ x.stopByte := by cases x <;> decide

@[simp] theorem offsetAt_zero (x : ScanDir) (c : Byte) : x.offsetAt c 0 = c := by
  cases x with
  | fwd => exact BitVec.add_zero c
  | bwd => exact BitVec.sub_zero c

theorem offsetAt_succ (x : ScanDir) (c : Byte) (e : Nat) : x.offsetAt c (e + 1) = x.offsetAt (x.offsetAt c e) 1 := by
  cases x with
  | fwd => rw [offsetAt, BitVec.ofNat_add, ← BitVec.add_assoc]; rfl
  | bwd => rw [offsetAt, BitVec.ofNat_add, ← BitVec.sub_sub]; rfl

/-- A scan is back at the same offset after 256 steps. -/
theorem offsetAt_add_256 (x : ScanDir) (c : Byte) (e : Nat) : x.offsetAt c (e + 256) = x.offsetAt c e := by
  have hwrap : BitVec.ofNat 8 (e + 256) = BitVec.ofNat 8 e := BitVec.eq_of_toNat_eq (by simp)
  cases x <;> simp only [offsetAt, hwrap]

/-- A scan's `dist` steps reach the offset the distance was taken to. -/
@[simp] theorem offsetAt_dist (x : ScanDir) (c a : Byte) : x.offsetAt c (x.dist c a) = a := by
  cases x <;> simp only [offsetAt, dist, BitVec.ofNat_toNat, BitVec.setWidth_eq]
  case fwd => rw [BitVec.add_comm, BitVec.sub_add_cancel]
  case bwd => rw [sub_sub_cancel]

end ScanDir

/-- Of the scan steps that read on from offset `c`, the `d`-th is the first to read the stop byte. -/
def StopsAfter (x : ScanDir) (s : State) (c : Byte) (d : Nat) : Prop :=
  (∀ e : Nat, 0 < e → e < d → fetchByte s (x.offsetAt c e) ≠ x.stopByte) ∧ 0 < d ∧
    fetchByte s (x.offsetAt c d) = x.stopByte

/-- Where some offset holds the stop byte, there is a first one on the scan's way. -/
theorem exists_stopsAfter (x : ScanDir) {s : State} (c : Byte) {a : Byte} (ha : fetchByte s a = x.stopByte) :
    ∃ d, StopsAfter x s c d := by
  have hex : ∃ e, 0 < e ∧ fetchByte s (x.offsetAt c e) = x.stopByte :=
    ⟨x.dist c a + 256, by omega, by rwa [x.offsetAt_add_256, x.offsetAt_dist]⟩
  obtain ⟨hpos, hstop⟩ := Nat.find_spec hex
  exact ⟨Nat.find hex, fun e he hlt hb => Nat.find_min hex hlt ⟨he, hb⟩, hpos, hstop⟩

/-- The state where a scan stops at offset `a` (R152, R153). -/
def State.stopScan (s : State) (a : Byte) : State := { s with sc := a, ic := a, phase := .running }

/-- The state after the step at a bracket that starts a scan (R150, R151). -/
def State.startScan (s : State) (x : ScanDir) : State := { s with ic := s.ic + 1#8, sc := s.ic + 1#8, phase := x.phase }

section

variable (x : ScanDir) {s : State} (hr : s.rst = false) (hp : s.phase = x.phase)
include hr hp

/-- All that a scan step does: the next offset's byte stops the scan there, or is passed. -/
theorem step_scan_cases :
    (fetchByte s (x.offsetAt s.sc 1) = x.stopByte ∧ step s = .next (s.stopScan (x.offsetAt s.sc 1))) ∨
      (fetchByte s (x.offsetAt s.sc 1) ≠ x.stopByte ∧ step s = .next (s.setSc (x.offsetAt s.sc 1))) := by
  cases x with
  | fwd =>
    rw [step_scanFwd hr hp]
    exact (scanFwdStep_cases s).imp (And.imp_right (congrArg _)) (And.imp_right (congrArg _))
  | bwd =>
    rw [step_scanBwd hr hp]
    exact scanBwdStep_cases s

theorem step_scan_stop (hb : fetchByte s (x.offsetAt s.sc 1) = x.stopByte) :
    step s = .next (s.stopScan (x.offsetAt s.sc 1)) := by
  obtain ⟨-, h⟩ | ⟨hne, -⟩ := step_scan_cases x hr hp
  · exact h
  · exact absurd hb hne

theorem step_scan_pass (hb : fetchByte s (x.offsetAt s.sc 1) ≠ x.stopByte) :
    step s = .next (s.setSc (x.offsetAt s.sc 1)) := by
  obtain ⟨heq, -⟩ | ⟨-, h⟩ := step_scan_cases x hr hp
  · exact absurd heq hb
  · exact h

/-- The same scan step over the same store, with any other tape, `dc` and `out`. -/
theorem step_scan_frame {t : State} (h : step s = .next t) (tape : Memory) (dc : Byte) (out : List Byte) :
    step { s with tape := tape, dc := dc, out := out } = .next { t with tape := tape, dc := dc, out := out } := by
  obtain ⟨hb, e⟩ | ⟨hb, e⟩ := step_scan_cases x hr hp <;> cases e.symm.trans h
  · exact step_scan_stop x (s := { s with tape := tape, dc := dc, out := out }) hr hp hb
  · exact step_scan_pass x (s := { s with tape := tape, dc := dc, out := out }) hr hp hb

/-- A scan step writes `sc` alone, or stops. -/
theorem step_scan_writes {t : State} (h : step s = .next t) :
    t = { s with sc := t.sc } ∨ t = { s with sc := t.sc, ic := t.sc, phase := .running } := by
  obtain ⟨-, e⟩ | ⟨-, e⟩ := step_scan_cases x hr hp <;> cases e.symm.trans h
  · exact .inr rfl
  · exact .inl rfl

end

/-- Settles O33: a scan step in either direction, by what it writes and by what it needs of the state. -/
theorem scanReadsOnlyTheStore : Obligations.ScanReadsOnlyTheStore := by
  intro s t hscan h
  obtain ⟨hr, -⟩ := step_cases h
  obtain ⟨x, hp⟩ : ∃ x : ScanDir, s.phase = x.phase := hscan.elim (⟨.fwd, ·⟩) (⟨.bwd, ·⟩)
  exact ⟨step_scan_writes x hr hp h, step_scan_frame x hr hp h⟩

end Sys2Proof.Machine

namespace Sys2Proof.Safety

open Sys2Proof.Machine

section

variable (x : ScanDir) {s : State} (hr : s.rst = false) (hp : s.phase = x.phase)
include hr hp

/-- A scan passes any number of bytes other than its stop byte, writing `sc` alone: induction on the number, the last step
taken off. -/
theorem run_scan_pass (n : Nat) (hb : ∀ e : Nat, 0 < e → e ≤ n → fetchByte s (x.offsetAt s.sc e) ≠ x.stopByte) :
    run n s = .next (s.setSc (x.offsetAt s.sc n)) := by
  induction n with
  | zero => rw [x.offsetAt_zero]; rfl
  | succ n ih =>
    have hrun := ih fun e he hle => hb e he (by omega)
    have hlast := hb (n + 1) (by omega) le_rfl
    rw [x.offsetAt_succ] at hlast ⊢
    exact (run_add hrun 1).trans (run_next (step_scan_pass x (s := s.setSc (x.offsetAt s.sc n)) hr hp hlast) 0)

/-- A scan stops at the first stop byte on its way. -/
theorem run_scan_stop {d : Nat} (hd : StopsAfter x s s.sc d) : run d s = .next (s.stopScan (x.offsetAt s.sc d)) := by
  obtain ⟨hpass, hpos, hstop⟩ := hd
  obtain ⟨n, rfl⟩ : ∃ n, d = n + 1 := ⟨d - 1, by omega⟩
  have hrun := run_scan_pass x hr hp n fun e he hle => hpass e he (by omega)
  rw [x.offsetAt_succ] at hstop ⊢
  exact (run_add hrun 1).trans (run_next (step_scan_stop x (s := s.setSc (x.offsetAt s.sc n)) hr hp hstop) 0)

/-- Without its stop byte in the store a scan goes on for ever. -/
theorem run_scan_forever (hnone : ∀ a, fetchByte s a ≠ x.stopByte) (n : Nat) :
    run n s = .next (s.setSc (x.offsetAt s.sc n)) :=
  run_scan_pass x hr hp n fun _ _ _ => hnone _

/-- A scan stops if and only if the store holds its stop byte (R156). -/
theorem scan_stops_iff : (∃ n t, run n s = .next t ∧ t.phase = .running) ↔ ∃ a, fetchByte s a = x.stopByte := by
  constructor
  · rintro ⟨n, t, hrun, ht⟩
    by_contra! hnone
    cases (run_scan_forever x hr hp hnone n).symm.trans hrun
    exact x.phase_ne_running (hp.symm.trans ht)
  · rintro ⟨a, ha⟩
    obtain ⟨d, hd⟩ := exists_stopsAfter x s.sc ha
    exact ⟨d, _, run_scan_stop x hr hp hd, rfl⟩

end

/-- Settles O30: the forward step's two cases, and the run to the first `]`. -/
theorem forwardScanStopsAtCloseBracket : Obligations.ForwardScanStopsAtCloseBracket := by
  refine fun s hr hp => ⟨step_scan_stop .fwd hr hp, step_scan_pass .fwd hr hp, fun d hpos hpass hstop => ?_⟩
  have hic : s.sc + BitVec.ofNat 8 (d + 1) - 1#8 = s.sc + BitVec.ofNat 8 d := by
    rw [BitVec.ofNat_add, ← BitVec.add_assoc, BitVec.add_sub_cancel]
  rw [hic]
  exact run_scan_stop .fwd hr hp ⟨hpass, hpos, hstop⟩

/-- Settles O31: the backward step's two cases, and the run to the first `[`. -/
theorem backwardScanStopsAtOpenBracket : Obligations.BackwardScanStopsAtOpenBracket :=
  fun _ hr hp => ⟨step_scan_stop .bwd hr hp, step_scan_pass .bwd hr hp,
    fun _ hpos hpass hstop => run_scan_stop .bwd hr hp ⟨hpass, hpos, hstop⟩⟩

/-- Settles O34: a scan in either direction passes every byte but its bracket, and meets every offset within 256 steps. -/
theorem scanWithoutTargetNeverStops : Obligations.ScanWithoutTargetNeverStops :=
  ⟨fun _ hr hp => ⟨scan_stops_iff .fwd hr hp, run_scan_forever .fwd hr hp⟩,
    fun _ hr hp => ⟨scan_stops_iff .bwd hr hp, run_scan_forever .bwd hr hp⟩⟩

end Sys2Proof.Safety
end

section
/-! SUPPORT. Brackets that start a scan (44_loop.md R154, R157): the step at the bracket, then the scan to where it stops. -/

namespace Sys2Proof.Safety

open Sys2Proof.Machine

/-- A `[` at a zero cell starts a forward scan at its own offset (R150). -/
theorem step_brz_zero {s : State} (h : Fetches s 0x5B#8) (hz : memRead s s.dc = 0x00#8) :
    step s = .next (s.startScan .fwd) :=
  (step_of_fetches h rfl).trans (exec_brz_zero hz)

/-- A `]` at a non-zero cell starts a backward scan at its own offset (R151). -/
theorem step_brnz_nonzero {s : State} (h : Fetches s 0x5D#8) (hnz : memRead s s.dc ≠ 0x00#8) :
    step s = .next (s.startScan .bwd) :=
  (step_of_fetches h rfl).trans (exec_brnz_nonzero hnz)

section

variable (x : ScanDir) {s : State} (hf : Fetches s x.startByte) (hstart : step s = .next (s.startScan x))
include hf hstart

/-- From a bracket that starts a scan, the states on the way: the start, with `sc` advanced. -/
theorem run_bracket_pass {d m : Nat} (hd : StopsAfter x s (s.ic + 1#8) d) (hm : m < d) :
    run (m + 1) s = .next ((s.startScan x).setSc (x.offsetAt (s.ic + 1#8) m)) := by
  obtain ⟨hr, -, -⟩ := hf
  obtain ⟨hpass, -, -⟩ := hd
  rw [run_next hstart]
  exact run_scan_pass x (s := s.startScan x) hr rfl m fun e he hle => hpass e he (by omega)

/-- From a bracket that starts a scan, the state where the scan stops differs in `ic` and `sc` alone. -/
theorem run_bracket_stop {d : Nat} (hd : StopsAfter x s (s.ic + 1#8) d) :
    run (d + 1) s = .next { s with ic := x.offsetAt (s.ic + 1#8) d, sc := x.offsetAt (s.ic + 1#8) d } := by
  obtain ⟨hr, hp, -⟩ := hf
  rw [run_next hstart, hp]
  exact run_scan_stop x (s := s.startScan x) hr rfl hd

/-- A bracket that starts a scan lands on the nearest stop byte `a`, and no step on the way writes `dc`, `Tape` or `out`
(R154, R157). -/
theorem bracket_lands {a : Byte} (ha : fetchByte s a = x.stopByte)
    (hpass : ∀ e : Nat, 0 < e → e < x.dist (s.ic + 1#8) a → fetchByte s (x.offsetAt (s.ic + 1#8) e) ≠ x.stopByte) :
    run (1 + x.dist (s.ic + 1#8) a) s = .next { s with ic := a, sc := a } ∧
      ∀ m : Nat, m ≤ x.dist (s.ic + 1#8) a → ∃ u, run m s = .next u ∧
        u.dc = s.dc ∧ u.tape = s.tape ∧ u.out = s.out := by
  have hbyte : fetchByte s (s.ic + 1#8) = x.startByte := hf.2.2
  have hoffset := x.offsetAt_dist (s.ic + 1#8) a
  have hpos : 0 < x.dist (s.ic + 1#8) a := by
    refine Nat.pos_of_ne_zero fun hzero => ?_
    rw [hzero, x.offsetAt_zero] at hoffset
    exact x.startByte_ne_stopByte (hbyte.symm.trans (hoffset ▸ ha))
  have hd : StopsAfter x s (s.ic + 1#8) (x.dist (s.ic + 1#8) a) := ⟨hpass, hpos, by rwa [hoffset]⟩
  constructor
  · rw [Nat.add_comm, run_bracket_stop x hf hstart hd, hoffset]
  · intro m hm
    cases m with
    | zero => exact ⟨s, rfl, rfl, rfl, rfl⟩
    | succ m => exact ⟨_, run_bracket_pass x hf hstart hd hm, rfl, rfl, rfl⟩

end

/-- Settles O32: each bracket starts the scan of its direction, which stops at the first opposite bracket whatever else it
passes. -/
theorem bracketLandsOnNearestOpposite : Obligations.BracketLandsOnNearestOpposite :=
  ⟨fun _ _ hf hz ha hpass => bracket_lands .fwd hf (step_brz_zero hf hz) ha hpass,
    fun _ _ hf hnz ha hpass => bracket_lands .bwd hf (step_brnz_nonzero hf hnz) ha hpass⟩

end Sys2Proof.Safety
end

section
/-! SUPPORT. The terminator's handler, and the block in HALTED (45_halt.md R180, R181). -/

namespace Sys2Proof.Machine

theorem exec_halt (s : State) : exec .halt s = .next { s with phase := .halted } := rfl

theorem step_halted {s : State} (hr : s.rst = false) (hp : s.phase = .halted) : step s = .fault .halted := by
  simp [step, hr, hp]

/-- With `rst` released, a host move other than asserting it leaves every element of the block's state: a load is refused,
and the other moves write the pin or the host's side of the `next` port (R64, R67). -/
theorem hostMove_frame_of_released {s : State} (hr : s.rst = false) {m : HostMove} (hm : m ≠ .assertRst) :
    hostMove m s = { s with rst := (hostMove m s).rst, nextPort := (hostMove m s).nextPort,
                            answers := (hostMove m s).answers } := by
  cases m with
  | assertRst => exact absurd rfl hm
  | load image =>
    have hrefused : hostMove (.load image) s = s := if_neg (by simp [hr])
    rw [hrefused]
  | releaseRst | answer v | setNext p => rfl

end Sys2Proof.Machine

namespace Sys2Proof.Safety

open Sys2Proof.Machine

/-- Outside RUNNING `rst` is released, because asserting it holds the block in RUNNING (R230). -/
theorem HeldInv.rst_eq_false {s : State} (hheld : HeldInv s) (hp : s.phase ≠ .running) : s.rst = false := by
  refine Bool.eq_false_iff.mpr fun hr => ?_
  obtain ⟨-, -, -, hrun, -⟩ := hheld hr
  exact hp hrun

/-- Settles O38: the terminator's byte both ways, its handler, and the forward-scan step at a byte other than `]`. -/
theorem haltStopsTheBlock : Obligations.HaltStopsTheBlock := by
  refine ⟨rfl, decode_encode .halt, exec_halt, fun s hr hp hb => step_scan_pass .fwd hr hp fun hstop => ?_⟩
  have hne : 0x00#8 ≠ ScanDir.fwd.stopByte := by decide
  exact hne (hb.symm.trans hstop)

/-- Settles O39: HALTED is a phase that `rst` is released in, so that neither a step nor a load can write the block. -/
theorem haltedHasNoStep : Obligations.HaltedHasNoStep := by
  intro s hheld hp
  have hr : s.rst = false := hheld.rst_eq_false (by simp [hp])
  exact ⟨by simp [step_halted hr hp], fun m => hostMove_frame_of_released hr⟩

end Sys2Proof.Safety
end

section
/-! SUPPORT. The block's one exception (60_exceptions.md R201, R203): which steps fault, and the block in FAULTED. -/

namespace Sys2Proof.Machine

/-- A step of the block raises IllegalInstruction, or it neither meets that fault's condition nor ends in FAULTED. -/
theorem step_fault_cases {s t : State} (h : step s = .next t) :
    (s.phase = .running ∧ decode (fetchByte s (s.ic + 1#8)) = .unknown (fetchByte s (s.ic + 1#8)) ∧
        t = { s with ic := s.ic + 1#8, fault := some ⟨s.ic + 1#8, fetchByte s (s.ic + 1#8)⟩, phase := .faulted }) ∨
      (¬ (s.phase = .running ∧ ∃ b, decode (fetchByte s (s.ic + 1#8)) = .unknown b) ∧ t.phase ≠ .faulted) := by
  obtain ⟨-, ⟨hp, i, hd, -⟩ | hfault | hscan⟩ := step_cases h
  case inl =>
    have hphase := step_running_phase_field hp h
    refine .inr ⟨by simp [hd], fun hf => ?_⟩
    simp only [hf, hd, Decoded.instr?, reduceCtorEq, if_false] at hphase
    split_ifs at hphase
  case inr.inl => exact .inl hfault
  case inr.inr =>
    obtain ⟨-, hleaves⟩ := fourEventsLeaveRunning
    have hp : s.phase = .scanFwd ∨ s.phase = .scanBwd := hscan.imp And.left And.left
    have hphase : t.phase = s.phase ∨ t.phase = .running := hleaves s t hp h
    refine .inr ⟨fun ⟨hrun, _⟩ => by simp [hrun] at hp, fun hf => ?_⟩
    obtain hp | hp := hp <;> simp [hf, hp] at hphase

theorem step_faulted {s : State} (hr : s.rst = false) (hp : s.phase = .faulted) : step s = .fault .faulted := by
  simp [step, hr, hp]

end Sys2Proof.Machine

namespace Sys2Proof.Safety

open Sys2Proof.Machine

/-- A store that holds an unknown byte is not well formed (R35, R106). -/
theorem not_storeWF_of_unknown {s : State} {a b : Byte} (hd : decode (fetchByte s a) = .unknown b) (n : Nat) :
    ¬ StoreWF n s.pstore := by
  intro hwf
  obtain ⟨i, hi⟩ := decode_of_storeWF hwf a.isLt
  cases hi.symm.trans hd

/-- Settles O13: a step either faults, and then the state it leaves is written out, or it does not end in FAULTED. -/
theorem illegalInstructionIsTheOneFault : Obligations.IllegalInstructionIsTheOneFault := by
  intro s t h
  obtain ⟨hr, -⟩ := step_cases h
  obtain ⟨hp, hd, ht⟩ | ⟨hno, hphase⟩ := step_fault_cases h
  case inr => exact ⟨iff_of_false hphase hno, fun hf => absurd hf hphase⟩
  case inl =>
    have hrst : t.rst = false := by rw [ht, hr]
    have hphase : t.phase = .faulted := by rw [ht]
    refine ⟨iff_of_true hphase ⟨hp, _, hd⟩, fun _ => ⟨ht, if_pos hphase, ?ended, ?stuck, ?moves, rfl, ?store⟩⟩
    case ended => simp [Ended, hphase]
    case stuck => simp [step_faulted hrst hphase]
    case moves =>
      intro m hm
      rw [hostMove_frame_of_released hrst hm]
      exact ⟨rfl, hphase⟩
    case store => exact fun n => not_storeWF_of_unknown hd n

end Sys2Proof.Safety
end

section
/-! SUPPORT. The program store and the reset pin under a step, and what the host's moves write of them
(70_reset_and_hazards.md R230, R232, R234, R236). -/

namespace Sys2Proof.Machine

/-- No handler writes the program store or the reset pin. -/
theorem exec_pstore_rst {i : Instr} {s t : State} (h : exec i s = .next t) : t.pstore = s.pstore ∧ t.rst = s.rst := by
  obtain ⟨-, rfl⟩ | ⟨-, rfl⟩ | ⟨-, rfl⟩ | ⟨-, rfl⟩ | ⟨-, rfl⟩ | ⟨-, v, -, rfl⟩ | ⟨-, -, rfl⟩ |
    ⟨-, -, rfl⟩ | ⟨-, -, rfl⟩ | ⟨-, -, rfl⟩ | ⟨-, rfl⟩ := exec_cases h <;> exact ⟨rfl, rfl⟩

/-- No step writes the program store or the reset pin. -/
theorem step_pstore_rst {s t : State} (h : step s = .next t) : t.pstore = s.pstore ∧ t.rst = s.rst := by
  obtain ⟨hr, ⟨-, i, -, he⟩ | ⟨-, -, rfl⟩ | hscan⟩ := step_cases h
  case inl => simpa using exec_pstore_rst he
  case inr.inl => exact ⟨rfl, rfl⟩
  case inr.inr =>
    obtain ⟨x, hp⟩ : ∃ x : ScanDir, s.phase = x.phase := hscan.elim (⟨.fwd, ·.1⟩) (⟨.bwd, ·.1⟩)
    obtain ⟨-, e⟩ | ⟨-, e⟩ := step_scan_cases x hr hp <;> cases e.symm.trans h <;> exact ⟨rfl, rfl⟩

/-- While `rst` is asserted there is no step (R230). -/
theorem step_heldInReset {s : State} (hr : s.rst = true) : step s = .fault .heldInReset := if_pos hr

/-- HALTED and FAULTED have no step, whatever the level of `rst` (R181, R201, R230). -/
theorem step_ne_next_of_stopped {s : State} (hp : s.phase = .halted ∨ s.phase = .faulted) (t : State) :
    step s ≠ .next t := by
  intro h
  obtain ⟨-, ⟨hq, -⟩ | ⟨hq, -⟩ | ⟨hq, -⟩ | ⟨hq, -⟩⟩ := step_cases h <;> simp [hq] at hp

/-- Of the host's moves, asserting `rst` alone writes the phase, to RUNNING (R232). -/
theorem hostMove_phase (m : HostMove) (s : State) :
    (hostMove m s).phase = if m = .assertRst then .running else s.phase := by
  cases m with
  | assertRst => rfl
  | load image => simp only [hostMove]; split <;> rfl
  | releaseRst | answer v | setNext p => rfl

/-- With `rst` released the host has no move that changes the program store (R234). -/
theorem hostMove_pstore_of_released {s : State} (hr : s.rst = false) (m : HostMove) :
    (hostMove m s).pstore = s.pstore := by
  by_cases hm : m = .assertRst
  · rw [hm]; rfl
  · rw [hostMove_frame_of_released hr hm]

end Sys2Proof.Machine

namespace Sys2Proof.Safety

open Sys2Proof.Machine

/-- A host move keeps the block at its reset values under `rst`: asserting it gives them, releasing it ends the premise,
and no other move writes an element of the block's state but `P`. -/
theorem heldInv_hostMove {s : State} (hheld : HeldInv s) (m : HostMove) : HeldInv (hostMove m s) := by
  cases m with
  | assertRst => exact fun _ => atReset_assertRst s
  | releaseRst => exact nofun
  | load image =>
    simp only [hostMove]
    split <;> exact hheld
  | answer v | setNext p => exact hheld

/-- A step leaves `rst` released, as it found it. -/
theorem heldInv_of_step {s t : State} (h : step s = .next t) : HeldInv t := by
  obtain ⟨hr, -⟩ := step_cases h
  obtain ⟨-, hrst⟩ := step_pstore_rst h
  exact fun ht => absurd (ht.symm.trans (hrst.trans hr)) (by decide)

/-- Settles O2: no step under `rst`, the reset values when it is asserted, the invariant move by move and step by step,
and the RUNNING step once it is released. -/
theorem rstHoldsBlockAtResetValues : Obligations.RstHoldsBlockAtResetValues := by
  refine ⟨fun s => step_heldInReset, fun s => ⟨rfl, atReset_assertRst s⟩, fun m s hheld => heldInv_hostMove hheld m,
    fun s t _ h => heldInv_of_step h, fun s hheld hr => ?released⟩
  obtain ⟨-, -, -, hp, -⟩ := hheld hr
  exact ⟨hheld hr, rfl, step_running rfl hp⟩

/-- Settles O4: HALTED and FAULTED have no step, and asserting `rst` is the one host move that writes the phase. -/
theorem onlyResetLeavesHaltedOrFaulted : Obligations.OnlyResetLeavesHaltedOrFaulted :=
  ⟨assertRst_pstore, fun s hp => ⟨step_ne_next_of_stopped hp,
    fun m hm => (hostMove_phase m s).trans (if_neg hm), hostMove_phase .assertRst s⟩⟩

/-- Settles O6: every step keeps the store, hence every run; no host move writes it while `rst` is released. -/
theorem storeUnchangedWhileRunning : Obligations.StoreUnchangedWhileRunning := by
  refine ⟨fun n s t h => ?run, fun m s hr => hostMove_pstore_of_released hr m⟩
  refine run_keeps (p := fun u => u.pstore = s.pstore) (fun u v hu hstep => ?_) rfl h
  obtain ⟨hkept, -⟩ := step_pstore_rst hstep
  exact hkept.trans hu

end Sys2Proof.Safety
end

section
/-! SUPPORT. Which steps are enabled (70_reset_and_hazards.md R238), and the first step after reset (R231). -/

namespace Sys2Proof.Machine

/-- A handler has a next state, or is IN waiting for the host (R141). -/
theorem exec_next_or_waiting (i : Instr) (s : State) :
    (∃ t, exec i s = .next t) ∨ (i = .inp ∧ hostByte s = none) := by
  cases i with
  | incp | decp | inc | dec | out | halt => exact .inl ⟨_, rfl⟩
  | inp =>
    cases hv : hostByte s with
    | some v => exact .inl ⟨_, exec_inp_some hv⟩
    | none => exact .inr ⟨rfl, rfl⟩
  | brz =>
    by_cases hz : memRead s s.dc = 0x00#8
    · exact .inl ⟨_, exec_brz_zero hz⟩
    · exact .inl ⟨_, exec_brz_nonzero hz⟩
  | brnz =>
    by_cases hz : memRead s s.dc = 0x00#8
    · exact .inl ⟨_, exec_brnz_zero hz⟩
    · exact .inl ⟨_, exec_brnz_nonzero hz⟩

/-- A scan always has a next step (R152, R153, D4). -/
theorem step_scan_next (x : ScanDir) {s : State} (hr : s.rst = false) (hp : s.phase = x.phase) :
    ∃ t, step s = .next t := by
  obtain ⟨-, h⟩ | ⟨-, h⟩ := step_scan_cases x hr hp
  · exact ⟨_, h⟩
  · exact ⟨_, h⟩

end Sys2Proof.Machine

namespace Sys2Proof.Safety

open Sys2Proof.Machine

/-- A RUNNING step has a next state, or stands before a `,` the host has not answered (R67, R101, R106). -/
theorem step_running_next_or_waiting {s : State} (hr : s.rst = false) (hp : s.phase = .running) :
    (∃ t, step s = .next t) ∨ (fetchByte s (s.ic + 1#8) = 0x2C#8 ∧ hostByte s = none) := by
  cases hd : decode (fetchByte s (s.ic + 1#8)) with
  | unknown b => exact .inl ⟨_, step_of_unknown hr hp hd⟩
  | known i =>
    obtain ⟨t, he⟩ | ⟨rfl, hnone⟩ := exec_next_or_waiting i (s.setIc (s.ic + 1#8))
    · exact .inl ⟨t, (step_of_fetches ⟨hr, hp, rfl⟩ hd).trans he⟩
    · exact .inr ⟨decode_eq_known_iff.mp hd, hnone⟩

/-- Settles O15: phase by phase, which steps have a next state. -/
theorem stepMissingOnlyInThreeCases : Obligations.StepMissingOnlyInThreeCases := by
  intro s hr
  constructor
  · intro hno
    cases hp : s.phase with
    | running =>
      obtain ⟨t, h⟩ | hwait := step_running_next_or_waiting hr hp
      · exact absurd h (hno t)
      · exact .inr (.inr ⟨rfl, hwait⟩)
    | scanFwd =>
      obtain ⟨t, h⟩ := step_scan_next .fwd hr hp
      exact absurd h (hno t)
    | scanBwd =>
      obtain ⟨t, h⟩ := step_scan_next .bwd hr hp
      exact absurd h (hno t)
    | halted => exact .inl rfl
    | faulted => exact .inr (.inl rfl)
  · rintro (hp | hp | ⟨hp, hb, hnone⟩)
    · exact step_ne_next_of_stopped (.inl hp)
    · exact step_ne_next_of_stopped (.inr hp)
    · simp [step_inp_none ⟨hr, hp, hb⟩ hnone]

/-- Settles O3: `ic` is 255 at reset, so that the RUNNING step's fetch advances it to offset 0. -/
theorem firstFetchReadsOffsetZero : Obligations.FirstFetchReadsOffsetZero := by
  intro s hreset hr
  obtain ⟨-, -, hic, hp, -⟩ := hreset
  have hfetch : s.ic + 1#8 = 0x00#8 := by rw [hic]; rfl
  have hstep := stepRunsDecodedInstruction s hr hp
  rwa [hfetch] at hstep

end Sys2Proof.Safety
end

section
/-! SUPPORT. Balanced bracket strings (44_loop.md R158): a `[` in one has a `]` after it, and a `]` a `[` before it. -/

namespace Sys2Proof.Safety

open Sys2Proof.Machine

/-- The depth after two strings is the depth after the second, started where the first ends. -/
theorem bracketDepth_append (d : Nat) (xs ys : List Byte) :
    bracketDepth d (xs ++ ys) = (bracketDepth d xs).bind fun e => bracketDepth e ys := by
  induction xs generalizing d with
  | nil => rfl
  | cons b rest ih =>
    simp only [List.cons_append, bracketDepth, ih]
    split_ifs
    · rfl
    · cases d <;> rfl
    · rfl

/-- Bytes without a `]` do not lower the depth. -/
theorem le_bracketDepth_of_no_close {d e : Nat} {bs : List Byte} (h : 0x5D#8 ∉ bs) (hd : bracketDepth d bs = some e) :
    d ≤ e := by
  induction bs generalizing d with
  | nil => exact (Option.some.inj hd).le
  | cons b rest ih =>
    have hb : b ≠ 0x5D#8 := (List.ne_of_not_mem_cons h).symm
    have hrest := List.not_mem_of_not_mem_cons h
    simp only [bracketDepth, if_neg hb] at hd
    split_ifs at hd
    · exact Nat.le_of_succ_le (ih hrest hd)
    · exact ih hrest hd

/-- Bytes without a `[` do not raise the depth. -/
theorem bracketDepth_le_of_no_open {d e : Nat} {bs : List Byte} (h : 0x5B#8 ∉ bs) (hd : bracketDepth d bs = some e) :
    e ≤ d := by
  induction bs generalizing d with
  | nil => exact (Option.some.inj hd).ge
  | cons b rest ih =>
    have hb : b ≠ 0x5B#8 := (List.ne_of_not_mem_cons h).symm
    have hrest := List.not_mem_of_not_mem_cons h
    simp only [bracketDepth, if_neg hb] at hd
    split_ifs at hd
    · cases d with
      | zero => cases hd
      | succ d => exact Nat.le_succ_of_le (ih hrest hd)
    · exact ih hrest hd

/-- After a `[` the depth is not 0, so that a balanced string has a `]` after it. -/
theorem mem_close_of_balanced {xs ys : List Byte} (h : BracketBalanced (xs ++ 0x5B#8 :: ys)) : 0x5D#8 ∈ ys := by
  by_contra hno
  rw [BracketBalanced, bracketDepth_append] at h
  obtain ⟨d, -, hrest⟩ := Option.bind_eq_some_iff.mp h
  have hle : d + 1 ≤ 0 := le_bracketDepth_of_no_close hno hrest
  omega

/-- Before a `]` the depth is not 0, so that a balanced string has a `[` before it. -/
theorem mem_open_of_balanced {xs ys : List Byte} (h : BracketBalanced (xs ++ 0x5D#8 :: ys)) : 0x5B#8 ∈ xs := by
  by_contra hno
  rw [BracketBalanced, bracketDepth_append] at h
  obtain ⟨d, hd, hrest⟩ := Option.bind_eq_some_iff.mp h
  obtain rfl : d = 0 := Nat.le_zero.mp (bracketDepth_le_of_no_open hno hd)
  cases hrest

theorem mem_storeBytes {P : Memory} {a len : Nat} {b : Byte} :
    b ∈ storeBytes P a len ↔ ∃ i, (a ≤ i ∧ i < a + len) ∧ Memory.read P i = b := by
  simp only [storeBytes, List.mem_map, List.mem_range'_1]

/-- A store's bytes from `lo` to below `hi`, parted at an offset `i` among them. -/
theorem storeBytes_split (P : Memory) {lo hi i : Nat} (hlo : lo ≤ i) (hhi : i < hi) :
    storeBytes P lo (hi - lo) =
      storeBytes P lo (i - lo) ++ Memory.read P i :: storeBytes P (i + 1) (hi - (i + 1)) := by
  have hlen : hi - lo = (i - lo) + (hi - (i + 1) + 1) := by omega
  have hoffset : lo + (i - lo) = i := by omega
  simp only [storeBytes]
  rw [hlen, ← List.range'_append_1, List.range'_succ, hoffset, List.map_append, List.map_cons]

section

variable {P : Memory} {lo hi i : Nat} (hbal : BracketBalanced (storeBytes P lo (hi - lo))) (hlo : lo ≤ i) (hhi : i < hi)
include hbal hlo hhi

theorem exists_close_after_open (hopen : Memory.read P i = 0x5B#8) :
    ∃ j, i < j ∧ j < hi ∧ Memory.read P j = 0x5D#8 := by
  rw [storeBytes_split P hlo hhi, hopen] at hbal
  obtain ⟨j, ⟨hge, hlt⟩, hj⟩ := mem_storeBytes.mp (mem_close_of_balanced hbal)
  exact ⟨j, by omega, by omega, hj⟩

theorem exists_open_before_close (hclose : Memory.read P i = 0x5D#8) :
    ∃ j, lo ≤ j ∧ j < i ∧ Memory.read P j = 0x5B#8 := by
  rw [storeBytes_split P hlo hhi, hclose] at hbal
  obtain ⟨j, ⟨hge, hlt⟩, hj⟩ := mem_storeBytes.mp (mem_open_of_balanced hbal)
  exact ⟨j, by omega, by omega, hj⟩

end

/-- Between partners, brackets of the one kind come with brackets of the other: the body is free of both where it is free
of the byte that a scan over it stops at. -/
theorem bracketFree_iff_no_stopByte (x : ScanDir) {P : Memory} {k j : Nat} (h : Partners P k j) :
    BracketFree P k j ↔ ∀ i, k < i → i < j → Memory.read P i ≠ x.stopByte := by
  obtain ⟨-, -, -, hbal⟩ := h
  rw [Nat.sub_sub, ← Nat.add_comm 1 k] at hbal
  cases x with
  | fwd =>
    refine ⟨fun hfree i hki hij => (hfree i hij hki).2, fun hno i hij hki => ⟨fun hopen => ?_, hno i hki hij⟩⟩
    obtain ⟨i', hlt, hlt', hclose⟩ := exists_close_after_open hbal (by omega) hij hopen
    exact hno i' (by omega) hlt' hclose
  | bwd =>
    refine ⟨fun hfree i hki hij => (hfree i hij hki).1, fun hno i hij hki => ⟨hno i hki hij, fun hclose => ?_⟩⟩
    obtain ⟨i', hge, hlt, hopen⟩ := exists_open_before_close hbal (by omega) hij hclose
    exact hno i' (by omega) (by omega) hopen

end Sys2Proof.Safety
end

section
/-! SUPPORT. Where the scan that a bracket starts lands (44_loop.md section 3): one state, at the nearest stop byte, and
without wrapping where a stop byte lies ahead. -/

namespace Sys2Proof.Machine.ScanDir

/-- A scan in the direction meets offset `a` after `c` before it wraps. -/
def Ahead (x : ScanDir) (c a : Byte) : Prop :=
  match x with
  | .fwd => c < a
  | .bwd => a < c

section

variable (x : ScanDir) {c a i : Byte} {e : Nat}

theorem dist_lt (c a : Byte) : x.dist c a < 256 := by cases x <;> exact BitVec.isLt _

/-- The distance to the offset `e` steps on is `e`, short of a whole round. -/
theorem dist_offsetAt (c : Byte) (he : e < 256) : x.dist c (x.offsetAt c e) = e := by
  cases x <;> simp only [dist, offsetAt] <;> bv_omega

/-- The offsets up to one that lies ahead lie ahead. -/
theorem ahead_offsetAt (h : x.Ahead c a) (hpos : 0 < e) (hle : e ≤ x.dist c a) : x.Ahead c (x.offsetAt c e) := by
  cases x <;> simp only [Ahead, dist, offsetAt] at * <;> bv_omega

theorem offsetAt_ahead (h : x.Ahead c a) (hlt : e < x.dist c a) : x.Ahead (x.offsetAt c e) a := by
  cases x <;> simp only [Ahead, dist, offsetAt] at * <;> bv_omega

theorem dist_pos (h : x.Ahead c a) : 0 < x.dist c a := by
  cases x <;> simp only [Ahead, dist] at * <;> bv_omega

theorem dist_lt_dist (h : x.Ahead c i) (h' : x.Ahead i a) : x.dist c i < x.dist c a := by
  cases x <;> simp only [Ahead, dist] at * <;> bv_omega

/-- The offsets on the way from `c` to `a` are those that lie between them. -/
theorem forall_on_way_iff (h : x.Ahead c a) {p : Byte → Prop} :
    (∀ e : Nat, 0 < e → e < x.dist c a → p (x.offsetAt c e)) ↔ ∀ i, x.Ahead c i → x.Ahead i a → p i := by
  constructor
  · intro hway i hci hia
    have hi := hway (x.dist c i) (x.dist_pos hci) (x.dist_lt_dist hci hia)
    rwa [x.offsetAt_dist] at hi
  · exact fun hbetween e hpos hlt => hbetween _ (x.ahead_offsetAt h hpos hlt.le) (x.offsetAt_ahead h hlt)

end

end Sys2Proof.Machine.ScanDir

namespace Sys2Proof.Machine

/-- The first stop byte is no farther than any other. -/
theorem StopsAfter.le_dist {x : ScanDir} {s : State} {c a : Byte} {d : Nat} (hd : StopsAfter x s c d)
    (hpos : 0 < x.dist c a) (ha : fetchByte s a = x.stopByte) : d ≤ x.dist c a := by
  obtain ⟨hpass, -, -⟩ := hd
  by_contra! hlt
  exact hpass _ hpos hlt (by rwa [x.offsetAt_dist])

end Sys2Proof.Machine

namespace Sys2Proof.Safety

open Sys2Proof.Machine

/-- A run is at the first RUNNING state after its start only once: a later one is not the first. -/
theorem ScanLands.unique {s t t' : State} (h : ScanLands s t) (h' : ScanLands s t') : t = t' := by
  obtain ⟨d, -, hrun, ht, hscan⟩ := h
  obtain ⟨d', -, hrun', ht', hscan'⟩ := h'
  obtain hlt | rfl | hlt := Nat.lt_trichotomy d d'
  · obtain ⟨u, hu, hnot⟩ := hscan' (d + 1) (by omega) hlt
    cases hrun.symm.trans hu
    exact absurd ht hnot
  · cases hrun.symm.trans hrun'
    rfl
  · obtain ⟨u, hu, hnot⟩ := hscan (d' + 1) (by omega) hlt
    cases hrun'.symm.trans hu
    exact absurd ht' hnot

section

variable (x : ScanDir) {s : State} (hf : Fetches s x.startByte) (hstart : step s = .next (s.startScan x))
include hf hstart

/-- The scan lands on the nearest stop byte. -/
theorem scanLands_of_stopsAfter {d : Nat} (hd : StopsAfter x s (s.ic + 1#8) d) :
    ScanLands s { s with ic := x.offsetAt (s.ic + 1#8) d, sc := x.offsetAt (s.ic + 1#8) d } := by
  have ⟨_, hp, _⟩ := hf
  have ⟨_, hpos, _⟩ := hd
  refine ⟨d, hpos, run_bracket_stop x hf hstart hd, hp, fun m hm hle => ?_⟩
  obtain ⟨m, rfl⟩ : ∃ m', m = m' + 1 := ⟨m - 1, by omega⟩
  exact ⟨_, run_bracket_pass x hf hstart hd hle, x.phase_ne_running⟩

/-- Where a stop byte lies ahead, the scan lands on one that lies ahead. -/
theorem exists_scanLands_ahead {a : Byte} (hahead : x.Ahead (s.ic + 1#8) a) (ha : fetchByte s a = x.stopByte) :
    ∃ t, ScanLands s t ∧ x.Ahead (s.ic + 1#8) t.ic ∧ fetchByte s t.ic = x.stopByte := by
  obtain ⟨d, hd⟩ := exists_stopsAfter x (s.ic + 1#8) ha
  have hle := hd.le_dist (x.dist_pos hahead) ha
  have ⟨_, hpos, hstop⟩ := hd
  exact ⟨_, scanLands_of_stopsAfter x hf hstart hd, x.ahead_offsetAt hahead hpos hle, hstop⟩

/-- The scan lands on the stop byte at `a` ahead if and only if no other stands between. -/
theorem exists_scanLands_at_iff {a : Byte} (hahead : x.Ahead (s.ic + 1#8) a) (ha : fetchByte s a = x.stopByte) :
    (∃ t, ScanLands s t ∧ t.ic = a) ↔
      ∀ i, x.Ahead (s.ic + 1#8) i → x.Ahead i a → fetchByte s i ≠ x.stopByte := by
  rw [← x.forall_on_way_iff hahead (p := fun i => fetchByte s i ≠ x.stopByte)]
  constructor
  · rintro ⟨t, hlands, rfl⟩
    obtain ⟨d, hd⟩ := exists_stopsAfter x (s.ic + 1#8) ha
    have hle := hd.le_dist (x.dist_pos hahead) ha
    have hoffset : t.ic = x.offsetAt (s.ic + 1#8) d := by
      rw [hlands.unique (scanLands_of_stopsAfter x hf hstart hd)]
    have hdist : x.dist (s.ic + 1#8) t.ic = d := by
      rw [hoffset, x.dist_offsetAt _ (hle.trans_lt (x.dist_lt _ _))]
    rw [hdist]
    exact hd.1
  · intro hpass
    refine ⟨_, scanLands_of_stopsAfter x hf hstart ⟨hpass, x.dist_pos hahead, ?_⟩, x.offsetAt_dist _ a⟩
    rwa [x.offsetAt_dist]

end

/-- Below offset `n` of a well-formed store stand all bytes but the terminator. -/
theorem lt_of_storeWF {n : Nat} {s : State} (hwf : StoreWF n s.pstore) {a : Byte} (ha : fetchByte s a ≠ 0x00#8) :
    a.toNat < n := by
  by_contra hge
  obtain ⟨-, hbytes⟩ := hwf
  have hbyte := hbytes a.toNat a.isLt
  rw [if_neg hge] at hbyte
  exact ha hbyte

/-- Every offset of the store is a byte. -/
theorem exists_byte_of_lt {j : Nat} (hj : j < 256) : ∃ a : Byte, a.toNat = j :=
  ⟨BitVec.ofNat 8 j, by rw [BitVec.toNat_ofNat, Nat.mod_eq_of_lt hj]⟩

/-- In a well-formed balanced store a stop byte lies ahead of every bracket, in the direction of its scan. -/
theorem exists_stopByte_ahead (x : ScanDir) {n : Nat} {s : State} (hwf : StoreWF n s.pstore)
    (hbal : BracketBalanced (storeBytes s.pstore 0 n)) {c : Byte} (hc : fetchByte s c = x.startByte) :
    ∃ a, x.Ahead c a ∧ fetchByte s a = x.stopByte := by
  have hn : n ≤ 252 := hwf.1
  have hcn : c.toNat < n := lt_of_storeWF hwf (by rw [hc]; cases x <;> decide)
  cases x with
  | fwd =>
    obtain ⟨j, hcj, hjn, hj⟩ := exists_close_after_open hbal (Nat.zero_le _) hcn hc
    obtain ⟨a, rfl⟩ := exists_byte_of_lt (show j < 256 by omega)
    exact ⟨a, hcj, hj⟩
  | bwd =>
    obtain ⟨j, -, hjc, hj⟩ := exists_open_before_close hbal (Nat.zero_le _) hcn hc
    obtain ⟨a, rfl⟩ := exists_byte_of_lt (show j < 256 by omega)
    exact ⟨a, hjc, hj⟩

/-- Settles O36: a stop byte lies ahead of the bracket, so that the scan stops ahead of it without wrapping; and brackets
stand below `n`. -/
theorem balancedStoreScansStop : Obligations.BalancedStoreScansStop := by
  intro n s hwf hbal
  constructor
  case left =>
    intro hf hz
    have ⟨_, _, hopen⟩ := hf
    obtain ⟨a, hahead, ha⟩ := exists_stopByte_ahead .fwd hwf hbal hopen
    obtain ⟨t, hlands, hlt, ht⟩ := exists_scanLands_ahead .fwd hf (step_brz_zero hf hz) hahead ha
    exact ⟨t, hlands, hlt, lt_of_storeWF hwf (by rw [ht]; decide)⟩
  case right =>
    intro hf hnz
    have ⟨_, _, hclose⟩ := hf
    obtain ⟨a, hahead, ha⟩ := exists_stopByte_ahead .bwd hwf hbal hclose
    obtain ⟨t, hlands, hlt, -⟩ := exists_scanLands_ahead .bwd hf (step_brnz_nonzero hf hnz) hahead ha
    exact ⟨t, hlands, hlt, lt_of_storeWF hwf (by rw [hclose]; decide)⟩

/-- The offsets of a store between two bytes are the bytes between them. -/
theorem forall_byte_between_iff {lo hi : Byte} {p : Nat → Prop} :
    (∀ i : Byte, lo < i → i < hi → p i.toNat) ↔ ∀ i : Nat, lo.toNat < i → i < hi.toNat → p i := by
  refine ⟨fun h i hlo hhi => ?_, fun h i hlo hhi => h i.toNat hlo hhi⟩
  obtain ⟨i, rfl⟩ := exists_byte_of_lt (hhi.trans hi.isLt)
  exact h i hlo hhi

/-- Settles O37: the scan lands on the partner where the body has no stop byte, and a balanced body without the one bracket
is without the other. -/
theorem landsOnPartnerIffBodyBracketFree : Obligations.LandsOnPartnerIffBodyBracketFree := by
  constructor
  case left =>
    intro s j hf hz hj hpartners
    obtain ⟨a, rfl⟩ := exists_byte_of_lt hj
    have ⟨hahead, _, hclose, _⟩ := hpartners
    simp only [BitVec.toNat_inj]
    rw [exists_scanLands_at_iff .fwd hf (step_brz_zero hf hz) hahead hclose, bracketFree_iff_no_stopByte .fwd hpartners,
      ← forall_byte_between_iff]
    rfl
  case right =>
    intro s k hf hnz hpartners
    obtain ⟨a, rfl⟩ := exists_byte_of_lt (hpartners.1.trans (s.ic + 1#8).isLt)
    have ⟨hahead, hopen, _, _⟩ := hpartners
    simp only [BitVec.toNat_inj]
    rw [exists_scanLands_at_iff .bwd hf (step_brnz_nonzero hf hnz) hahead hopen, bracketFree_iff_no_stopByte .bwd hpartners,
      ← forall_byte_between_iff]
    exact forall_congr' fun i => forall_comm

end Sys2Proof.Safety
end

section
/-! SUPPORT. Which elements of the state a handler and a step write (10_state.md section 1), and what they write to `ic`
(10_state.md section 3). -/

namespace Sys2Proof.Machine

/-- From `s` to `t` the handler of the instruction byte `b` writes only what the column "writable by" allows it, the phase
apart: nothing of `ic`, the fault record and the host's readiness, and of the tape the current cell at most. -/
structure HandlerFrame (b : Byte) (s t : State) : Prop where
  ic : t.ic = s.ic
  fault : t.fault = s.fault
  nextPort : t.nextPort = s.nextPort
  dc : t.dc ≠ s.dc → b = 0x3E#8 ∨ b = 0x3C#8
  tape : t.tape = s.tape ∨
    ((b = 0x2B#8 ∨ b = 0x2D#8 ∨ b = 0x2C#8) ∧ ∃ v, t.tape = Memory.write s.tape s.dc.toNat v)
  sc : t.sc ≠ s.sc → b = 0x5B#8 ∨ b = 0x5D#8
  host : t.answers ≠ s.answers ∨ t.draws ≠ s.draws → b = 0x2C#8

theorem setCell_tape (s : State) (v : Byte) : (setCell s v).tape = Memory.write s.tape s.dc.toNat v := rfl

/-- Every handler keeps to its column. -/
theorem exec_frame {i : Instr} {s t : State} (h : exec i s = .next t) : HandlerFrame (encode i) s t := by
  obtain ⟨rfl, rfl⟩ | ⟨rfl, rfl⟩ | ⟨rfl, rfl⟩ | ⟨rfl, rfl⟩ | ⟨rfl, rfl⟩ | ⟨rfl, v, -, rfl⟩ | ⟨rfl, -, rfl⟩ |
    ⟨rfl, -, rfl⟩ | ⟨rfl, -, rfl⟩ | ⟨rfl, -, rfl⟩ | ⟨rfl, rfl⟩ := exec_cases h <;>
    constructor <;> simp [encode, setCell_tape]

/-- What a step that answers a next state has written: what the handler of the byte it fetched may write, the fault, or the
scan cursor, with `ic` and the phase where the scan stops. -/
theorem step_frame_cases {s t : State} (h : step s = .next t) :
    (s.phase = .running ∧ HandlerFrame (fetchByte s (s.ic + 1#8)) (s.setIc (s.ic + 1#8)) t) ∨
      (s.phase = .running ∧ t.phase = .faulted ∧
        t = { s with
              ic := s.ic + 1#8, fault := some ⟨s.ic + 1#8, fetchByte s (s.ic + 1#8)⟩, phase := .faulted }) ∨
      ((s.phase = .scanFwd ∨ s.phase = .scanBwd) ∧
        (t = { s with sc := t.sc } ∨ t = { s with sc := t.sc, ic := t.sc, phase := .running })) := by
  obtain ⟨hr, ⟨hp, i, hd, he⟩ | ⟨hp, -, ht⟩ | hscan⟩ := step_cases h
  case inl => exact .inl ⟨hp, decode_eq_known_iff.mp hd ▸ exec_frame he⟩
  case inr.inl => exact .inr (.inl ⟨hp, by rw [ht], ht⟩)
  case inr.inr =>
    have hp : s.phase = .scanFwd ∨ s.phase = .scanBwd := hscan.imp And.left And.left
    obtain ⟨x, hx⟩ : ∃ x : ScanDir, s.phase = x.phase := hp.elim (⟨.fwd, ·⟩) (⟨.bwd, ·⟩)
    exact .inr (.inr ⟨hp, step_scan_writes x hr hx h⟩)

/-- A step leaves the tape, or is that of `+`, `-` or `,` and writes the current cell. -/
theorem step_tape_cases {s t : State} (h : step s = .next t) :
    t.tape = s.tape ∨
      (s.phase = .running ∧ (fetchByte s (s.ic + 1#8) = 0x2B#8 ∨ fetchByte s (s.ic + 1#8) = 0x2D#8 ∨
        fetchByte s (s.ic + 1#8) = 0x2C#8) ∧ ∃ v, t.tape = Memory.write s.tape s.dc.toNat v) := by
  obtain ⟨hp, hframe⟩ | ⟨-, -, ht⟩ | ⟨-, ht | ht⟩ := step_frame_cases h
  · exact hframe.tape.imp id fun hwrite => ⟨hp, hwrite⟩
  all_goals exact .inl (by rw [ht])

/-- A step that does not end in FAULTED leaves the fault record. -/
theorem step_fault_field {s t : State} (h : step s = .next t) (hne : t.phase ≠ .faulted) : t.fault = s.fault := by
  obtain ⟨-, hframe⟩ | ⟨-, hf, -⟩ | ⟨-, ht | ht⟩ := step_frame_cases h
  · exact hframe.fault
  · exact absurd hf hne
  all_goals rw [ht]

/-- A RUNNING step leaves `ic` as the fetch wrote it (R100, R105). -/
theorem step_running_ic {s t : State} (hp : s.phase = .running) (h : step s = .next t) : t.ic = s.ic + 1#8 := by
  obtain ⟨-, hframe⟩ | ⟨-, -, ht⟩ | ⟨hscan, -⟩ := step_frame_cases h
  · exact hframe.ic
  · rw [ht]
  · simp [hp] at hscan

/-- Settles O41: clause by clause, in each of the three kinds of step. -/
theorem stateWritableOnlyByItsInstructions : Obligations.StateWritableOnlyByItsInstructions := by
  intro s t h
  obtain ⟨hstore, hrst⟩ := step_pstore_rst h
  have htape : ∀ a, Memory.read t.tape a ≠ Memory.read s.tape a → a = s.dc.toNat ∧ s.phase = .running ∧
      (fetchByte s (s.ic + 1#8) = 0x2B#8 ∨ fetchByte s (s.ic + 1#8) = 0x2D#8 ∨ fetchByte s (s.ic + 1#8) = 0x2C#8) := by
    intro a ha
    obtain ht | ⟨hp, hbyte, v, ht⟩ := step_tape_cases h
    · exact absurd (by rw [ht]) ha
    · refine ⟨?_, hp, hbyte⟩
      by_contra hne
      exact ha (by rw [ht, Memory.read_write, if_neg hne])
  have hout : t.out ≠ s.out → s.phase = .running ∧ fetchByte s (s.ic + 1#8) = 0x2E#8 := by
    intro ho
    by_contra hno
    exact ho ((step_out_field h).trans (if_neg hno))
  obtain ⟨hp, hframe⟩ | ⟨hp, hf, ht⟩ | ⟨hscan, ht⟩ := step_frame_cases h
  case inl =>
    exact ⟨hstore, hrst, hframe.nextPort, fun hne => ⟨hp, hframe.dc hne⟩, htape, hout,
      fun hne => .inr (.inr ⟨hp, hframe.sc hne⟩), fun hne => absurd hframe.fault hne, fun hne => ⟨hp, hframe.host hne⟩⟩
  case inr.inl =>
    exact ⟨hstore, hrst, by rw [ht], fun hne => absurd (by rw [ht]) hne, htape, hout,
      fun hne => absurd (by rw [ht]) hne, fun _ => ⟨hp, hf⟩, fun hne => absurd hne (by rw [ht]; simp)⟩
  case inr.inr =>
    have hrest : t.nextPort = s.nextPort ∧ t.dc = s.dc ∧ t.fault = s.fault ∧ t.answers = s.answers ∧
        t.draws = s.draws := by obtain ht | ht := ht <;> rw [ht] <;> simp
    obtain ⟨hnext, hdc, hfault, hanswers, hdraws⟩ := hrest
    exact ⟨hstore, hrst, hnext, fun hne => absurd hdc hne, htape, hout, fun _ => or_assoc.mp (.inl hscan),
      fun hne => absurd hfault hne, fun hne => absurd hne (by simp [hanswers, hdraws])⟩

/-- Of the host's moves, asserting `rst` alone writes `ic`. -/
theorem hostMove_ic (m : HostMove) (s : State) : (hostMove m s).ic = if m = .assertRst then 0xFF#8 else s.ic := by
  cases m with
  | assertRst => rfl
  | load image => simp only [hostMove]; split <;> rfl
  | releaseRst | answer v | setNext p => rfl

/-- Settles O42: the fetch of a RUNNING step, the two outcomes of a scan step, and the host's moves. -/
theorem icWrittenByFetchScanAndReset : Obligations.IcWrittenByFetchScanAndReset := by
  refine ⟨fun s t hp h => ?running, fun s t hscan h => ?scan, hostMove_ic⟩
  case running =>
    rw [step_running_ic hp h]
    exact toNat_add_ofNat_eq_mod s.ic 1
  case scan =>
    obtain ⟨hp, -⟩ | ⟨hp, -⟩ | ⟨-, ht | ht⟩ := step_frame_cases h
    · simp [hp] at hscan
    · simp [hp] at hscan
    · exact .inl (by rw [ht]; exact ⟨rfl, rfl⟩)
    · exact .inr (by rw [ht]; exact ⟨rfl, rfl⟩)

end Sys2Proof.Machine
end

section
/-! SUPPORT. The block's invariant (10_state.md sections 5 to 8, R31) at reset, over every step and every host move. -/

namespace Sys2Proof.Safety

open Sys2Proof.Machine

/-- Outside FAULTED the record rule says that no fault is recorded. -/
theorem recordInv_iff_of_not_faulted {s : State} (hp : s.phase ≠ .faulted) : RecordInv s ↔ s.fault = none := by
  rw [RecordInv, if_neg hp]

/-- In FAULTED it says that the record is the offset and the byte there. -/
theorem recordInv_iff_of_faulted {s : State} (hp : s.phase = .faulted) :
    RecordInv s ↔ s.fault = some ⟨s.ic, fetchByte s s.ic⟩ := by
  rw [RecordInv, if_pos hp]

/-- A step keeps the tape's canonical form. -/
theorem step_keeps_tape_wf {s t : State} (hwf : Memory.wf s.tape) (h : step s = .next t) : Memory.wf t.tape := by
  obtain ht | ⟨-, -, v, ht⟩ := step_tape_cases h
  · rwa [ht]
  · rw [ht]
    exact Memory.wf_write v hwf s.dc.isLt

/-- A step keeps R31's rule: the fault writes the record for its own `ic`, and no other step writes it. -/
theorem step_keeps_recordInv {s t : State} (hrec : RecordInv s) (h : step s = .next t) : RecordInv t := by
  obtain ⟨-, -, ht⟩ | ⟨-, hne⟩ := step_fault_cases h
  · rw [ht]
    exact (recordInv_iff_of_faulted rfl).mpr rfl
  · have hp : s.phase ≠ .faulted := fun hp => step_ne_next_of_stopped (.inr hp) t h
    rw [recordInv_iff_of_not_faulted hne, step_fault_field h hne]
    exact (recordInv_iff_of_not_faulted hp).mp hrec

/-- Settles O44: the tape, the store, which no step writes, and the record. -/
theorem everyStepKeepsInvariant : Obligations.EveryStepKeepsInvariant := by
  rintro s t ⟨htape, hstore, hrec⟩ h
  obtain ⟨hkept, -⟩ := step_pstore_rst h
  exact ⟨step_keeps_tape_wf htape h, by rwa [hkept], step_keeps_recordInv hrec h⟩

theorem memory_wf_nil : Memory.wf [] := ⟨List.Pairwise.nil, by simp⟩

/-- Settles O45: both memories are empty lists, and nothing is recorded in RUNNING. -/
theorem resetMeetsInvariant : Obligations.ResetMeetsInvariant := ⟨memory_wf_nil, memory_wf_nil, rfl⟩

/-- Settles O46: asserting `rst` empties the tape and the record; a load is taken under `rst` alone, where nothing is
recorded, so that the record does not depend on the store; the other moves write neither memory nor record. -/
theorem everyHostMoveKeepsInvariant : Obligations.EveryHostMoveKeepsInvariant := by
  rintro m s ⟨htape, hstore, hrec⟩ hheld
  cases m with
  | assertRst => exact ⟨memory_wf_nil, hstore, rfl⟩
  | load image =>
    by_cases hr : s.rst = true
    · obtain ⟨-, -, -, hp, -, -, hfault⟩ := hheld hr
      have hmove : hostMove (.load image) s = s.setPstore (Memory.ofBytes image) := if_pos hr
      rw [hmove]
      exact ⟨htape, Memory.wf_ofBytes image, (recordInv_iff_of_not_faulted (by simp [hp])).mpr hfault⟩
    · have hmove : hostMove (.load image) s = s := if_neg hr
      rw [hmove]
      exact ⟨htape, hstore, hrec⟩
  | releaseRst | answer v | setNext p => exact ⟨htape, hstore, hrec⟩

end Sys2Proof.Safety
end

section
/-! SUPPORT. Runs over a well-formed store (10_state.md section 11, R36). -/

namespace Sys2Proof.Safety

open Sys2Proof.Machine

/-- A step that answers a next state is one of RUNNING or of a scan. -/
theorem running_or_scan_of_step {s t : State} (h : step s = .next t) :
    s.phase = .running ∨ ∃ x : ScanDir, s.phase = x.phase := by
  obtain ⟨-, ⟨hp, -⟩ | ⟨hp, -⟩ | ⟨hp, -⟩ | ⟨hp, -⟩⟩ := step_cases h
  · exact .inl hp
  · exact .inl hp
  · exact .inr ⟨.fwd, hp⟩
  · exact .inr ⟨.bwd, hp⟩

/-- A step that leaves the block RUNNING leaves `ic` at a byte other than the terminator: a command it has executed, or the
bracket where a scan stopped. -/
theorem fetchByte_ic_ne_term {s t : State} (h : step s = .next t) (ht : t.phase = .running) :
    fetchByte s t.ic ≠ 0x00#8 := by
  intro hterm
  obtain ⟨hr, -⟩ := step_cases h
  obtain hp | ⟨x, hx⟩ := running_or_scan_of_step h
  · have hphase := step_running_phase_field hp h
    rw [step_running_ic hp h] at hterm
    simp [hterm, ht, encode] at hphase
  · obtain ⟨hb, e⟩ | ⟨-, e⟩ := step_scan_cases x hr hx <;> cases e.symm.trans h
    · have hne : x.stopByte ≠ 0x00#8 := by cases x <;> decide
      exact hne (hb.symm.trans hterm)
    · exact x.phase_ne_running (hx.symm.trans ht)

/-- A step over a well-formed store does not fault (R106). -/
theorem not_faulted_of_storeWF {n : Nat} {s t : State} (hwf : StoreWF n s.pstore) (h : step s = .next t) :
    t.phase ≠ .faulted := by
  obtain ⟨-, hd, -⟩ | ⟨-, hne⟩ := step_fault_cases h
  · exact absurd hwf (not_storeWF_of_unknown hd n)
  · exact hne

/-- Settles O47: `ic` starts before offset 0; a step that leaves the block RUNNING leaves `ic` below `n`, because the
terminator is the one byte from there on. -/
theorem wellFormedStoreNeverFaults : Obligations.WellFormedStoreNeverFaults := by
  refine ⟨fun n s hreset hwf => ?reset, fun n s t hinv h => ?step⟩
  case reset =>
    obtain ⟨-, -, hic, hp, -⟩ := hreset
    exact ⟨hwf, by simp [hp], fun _ => by simp [hic]⟩
  case step =>
    obtain ⟨hwf, -, hfetch⟩ := hinv
    obtain ⟨hstore, -⟩ := step_pstore_rst h
    have hn : n ≤ 252 := hwf.1
    have hno : t.phase ≠ .faulted := not_faulted_of_storeWF hwf h
    have hlt : t.phase = .running → t.ic.toNat < n := fun ht => lt_of_storeWF hwf (fetchByte_ic_ne_term h ht)
    refine ⟨⟨by rwa [hstore], hno, fun ht => ?_⟩, hno, fun hp => ?_, fun _ => hlt⟩
    · have hic := hlt ht
      bv_omega
    · have hic := hfetch hp
      rw [step_running_ic hp h]
      exact ⟨hic, by bv_omega⟩

end Sys2Proof.Safety
end

section
/-! SUPPORT. A memory in canonical form as the set of its non-zero bytes (log entry 13). -/

namespace Sys2Proof.Machine

/-- A canonical memory lists exactly the offsets that do not read `0x00`, each with the byte it reads. -/
theorem Memory.mem_iff_read {m : Memory} (h : Memory.wf m) {a : Nat} {v : Byte} :
    (a, v) ∈ m ↔ v ≠ 0x00#8 ∧ Memory.read m a = v := by
  obtain ⟨hsorted, hcells⟩ := h
  induction m with
  | nil => simpa using fun hv => Ne.symm hv
  | cons c rest ih =>
    obtain ⟨hfirst, hrest⟩ := List.pairwise_cons.mp hsorted
    have htail := ih hrest fun d hd => hcells d (List.mem_cons_of_mem c hd)
    obtain ⟨-, hc⟩ := hcells c List.mem_cons_self
    by_cases hca : c.1 = a
    · have hnot : (a, v) ∉ rest := fun hmem => absurd (hfirst _ hmem) (by simp [hca])
      have hhead : (a, v) = c ↔ c.2 = v := by rw [Prod.ext_iff]; simp [hca, eq_comm]
      simp only [List.mem_cons, hnot, or_false, hhead, Memory.read, if_pos hca]
      exact ⟨fun hv => ⟨hv ▸ hc, hv⟩, And.right⟩
    · have hhead : (a, v) ≠ c := fun heq => hca (heq ▸ rfl)
      simp only [List.mem_cons, hhead, false_or, Memory.read, if_neg hca, htail]

/-- Of two canonical memories that read alike, each lists the cells of the other. -/
theorem Memory.subset_of_read_eq {m m' : Memory} (h : Memory.wf m) (h' : Memory.wf m')
    (hread : ∀ a, a < 256 → Memory.read m a = Memory.read m' a) : m ⊆ m' := by
  rintro ⟨a, v⟩ hmem
  obtain ⟨ha, -⟩ := h.2 _ hmem
  rw [Memory.mem_iff_read h, hread a ha] at hmem
  exact (Memory.mem_iff_read h').mpr hmem

/-- Settles O51: two lists with the same cells, in rising order of their offsets, are the same list. -/
theorem canonicalMemoryIsUnique : Obligations.CanonicalMemoryIsUnique := by
  intro m m' h h' hread
  have hsub : m ⊆ m' := Memory.subset_of_read_eq h h' hread
  have hsub' : m' ⊆ m := Memory.subset_of_read_eq h' h fun a ha => (hread a ha).symm
  have hnodup {l : Memory} (hl : Memory.wf l) : l.Nodup := hl.1.imp fun hlt heq => by simp [heq] at hlt
  have hperm : m.Perm m' := (List.perm_ext_iff_of_nodup (hnodup h) (hnodup h')).mpr fun c => ⟨@hsub c, @hsub' c⟩
  exact hperm.eq_of_pairwise (fun c d _ _ hcd hdc => absurd hcd (lt_asymm hdc)) h.1 h'.1

end Sys2Proof.Machine
end

section
/-! SUPPORT. From a program to its store and back (30_encoding.md sections 2 and 5), and the boot
(70_reset_and_hazards.md section 2). -/

namespace Sys2Proof

/-- Settles O11: a byte decodes to an instruction exactly where it is that instruction's byte. -/
theorem decodeEncodeRoundTrip : Obligations.DecodeEncodeRoundTrip :=
  fun i _ => ⟨decode_encode i, fun _ => decode_eq_known_iff.mp⟩

/-- Every instruction but the terminator is written as a command byte (R35). -/
theorem isCommandByte_encode {i : Instr} (h : i ≠ .halt) : isCommandByte (encode i) = true := by
  cases i with
  | halt => exact absurd rfl h
  | incp | decp | inc | dec | out | inp | brz | brnz => decide

end Sys2Proof

namespace Sys2Proof.Safety

open Sys2Proof.Machine

/-- Settles O50: the store reads the instructions' bytes in order and then `0x00`, and each byte decodes to its
instruction. -/
theorem loadedProgramDecodesToItself : Obligations.LoadedProgramDecodesToItself := by
  intro is hlen
  have hlen252 : is.length ≤ 252 := hlen
  simp only [Memory.ofBytes_unpackUnits_packUnits]
  refine ⟨fun k i hi => ?inside, fun k hge hk => ?past, fun hhalt => ?wellFormed⟩
  case inside =>
    obtain ⟨hk, -⟩ := List.getElem?_eq_some_iff.mp hi
    rw [Memory.read_ofBytes_programBytes _ (by omega), List.getD_eq_getElem?_getD, List.getElem?_map, hi]
    exact decode_encode i
  case past =>
    rw [Memory.read_ofBytes_programBytes _ hk, List.getD_eq_default _ _ (by simpa using hge)]
    exact decode_encode .halt
  case wellFormed =>
    have hcmds : ∀ b ∈ is.map encode, isCommandByte b = true := by
      intro b hb
      obtain ⟨i, hi, rfl⟩ := List.mem_map.mp hb
      exact isCommandByte_encode fun heq => hhalt (heq ▸ hi)
    have hwf := storeWF_programBytes (cmds := is.map encode) (by simpa using hlen) hcmds
    rwa [List.length_map] at hwf

/-- Settles O5: under `rst` the load is taken, and neither it nor the release writes what asserting `rst` wrote. -/
theorem bootLoadsImageAndResets : Obligations.BootLoadsImageAndResets :=
  fun s image => ⟨atReset_assertRst s, rfl, fun a => Memory.read_ofBytes image a.toNat a.isLt⟩

end Sys2Proof.Safety
end

section
/-! SUPPORT. The status outputs (20_memory.md R64), the order of the host's answers (log entry 2), and the parameter
`SCAN_WRAP` (92_eei_decisions.md D4). -/

namespace Sys2Proof

theorem concat8_toNat (a b : Byte) : (concat8 a b).toNat = a.toNat * 256 + b.toNat := by
  rw [concat8, BitVec.toNat_append, ← Nat.shiftLeft_add_eq_or_of_lt b.isLt, Nat.shiftLeft_eq]

end Sys2Proof

namespace Sys2Proof.Machine

/-- Settles O7: each output compares the phase; in FAULTED the record is what `fault_info` reads. -/
theorem statusOutputsReflectPhase : Obligations.StatusOutputsReflectPhase := by
  refine fun s => ⟨beq_iff_eq, beq_iff_eq, fun r hrec hp hr => ⟨?info, if_pos hp⟩⟩
  rw [Safety.recordInv_iff_of_faulted hp, hr] at hrec
  obtain rfl := Option.some.inj hrec
  exact concat8_toNat s.ic (fetchByte s s.ic)

/-- Settles O26: the three cases of the host's byte, each with what taking it leaves of the host's side. -/
theorem answersTakenInOrder : Obligations.AnswersTakenInOrder := by
  intro s
  refine ⟨fun v rest hlist => ?listed, fun hnil hport => ?free, fun hnil hport => ?silent⟩
  case listed =>
    refine ⟨_, exec_inp_some (hostByte_of_answers_cons hlist), setCell_read_self (takeHostByte s) v, ?_, ?_, rfl⟩ <;>
      simp [takeHostByte, hlist]
  case free =>
    have hbyte : hostByte s = some (Config.inputByte s.draws) := by simp [hostByte, hnil, hport]
    refine ⟨_, exec_inp_some hbyte, setCell_read_self (takeHostByte s) _, ?_, ?_, hport⟩ <;> simp [takeHostByte, hnil]
  case silent => exact exec_inp_none (by simp [hostByte, hnil, hport])

/-- Settles O35: `stuck` differs in the one test, of `sc` for 0, before the step of `cyclic`, which this machine takes. -/
theorem scanWrapStuckDiffersOnlyAtZero : Obligations.ScanWrapStuckDiffersOnlyAtZero :=
  ⟨rfl, fun _ => ⟨fun hzero => if_pos hzero, fun hne => if_neg hne, rfl⟩⟩

end Sys2Proof.Machine
end

section
/-! SUPPORT. Two outcomes that match: both stop for the same reason, or both go on, to states in a given relation. What
every step keeps of the relation, every run keeps. -/

namespace Sys2Proof.Machine

/-- Both outcomes are the same stop, or both are next states that `R` relates. -/
inductive Matches (R : State → State → Prop) :
    Host.Outcome State Fault Refusal → Host.Outcome State Fault Refusal → Prop
  | next {u v : State} (h : R u v) : Matches R (.next u) (.next v)
  | fault (r : Fault) : Matches R (.fault r) (.fault r)
  | refused (r : Refusal) : Matches R (.refused r) (.refused r)

section

variable {R : State → State → Prop}

theorem Matches.refl (hrefl : ∀ s, R s s) (o : Host.Outcome State Fault Refusal) : Matches R o o := by
  cases o with
  | next u => exact .next (hrefl u)
  | fault r => exact .fault r
  | refused r => exact .refused r

theorem Matches.exists_next {u : State} {o : Host.Outcome State Fault Refusal} (h : Matches R (.next u) o) :
    ∃ v, o = .next v ∧ R u v := by
  cases h with
  | next h => exact ⟨_, rfl, h⟩

theorem Matches.eq_fault {r : Fault} {o : Host.Outcome State Fault Refusal} (h : Matches R (.fault r) o) :
    o = .fault r := by
  cases h with
  | fault => rfl

variable {s t : State}

/-! The handlers with a test, from what their tests read: they match where the two states on each side of the test do. -/

theorem exec_inp_matches (hbyte : hostByte t = hostByte s)
    (h : ∀ v, R (setCell (takeHostByte s) v) (setCell (takeHostByte t) v)) :
    Matches R (exec .inp s) (exec .inp t) := by
  cases hv : hostByte s with
  | some v =>
    rw [exec_inp_some hv, exec_inp_some (hbyte.trans hv)]
    exact .next (h v)
  | none =>
    rw [exec_inp_none hv, exec_inp_none (hbyte.trans hv)]
    exact .fault _

theorem exec_brz_matches (hcell : memRead t t.dc = memRead s s.dc) (h : R s t)
    (hscan : R { s with sc := s.ic, phase := .scanFwd } { t with sc := t.ic, phase := .scanFwd }) :
    Matches R (exec .brz s) (exec .brz t) := by
  by_cases hz : memRead s s.dc = 0x00#8
  · rw [exec_brz_zero hz, exec_brz_zero (hcell.trans hz)]
    exact .next hscan
  · rw [exec_brz_nonzero hz, exec_brz_nonzero (hcell ▸ hz)]
    exact .next h

theorem exec_brnz_matches (hcell : memRead t t.dc = memRead s s.dc) (h : R s t)
    (hscan : R { s with sc := s.ic, phase := .scanBwd } { t with sc := t.ic, phase := .scanBwd }) :
    Matches R (exec .brnz s) (exec .brnz t) := by
  by_cases hz : memRead s s.dc = 0x00#8
  · rw [exec_brnz_zero hz, exec_brnz_zero (hcell.trans hz)]
    exact .next h
  · rw [exec_brnz_nonzero hz, exec_brnz_nonzero (hcell ▸ hz)]
    exact .next hscan

end

end Sys2Proof.Machine

namespace Sys2Proof.Safety

open Sys2Proof.Machine

section

variable {R : State → State → Prop} {s t : State}

/-- The steps of two states match where their handlers, their faults and their scan steps do: the phase, `rst` and the byte
fetched decide which of them the step is (R103). -/
theorem step_matches (hrst : t.rst = s.rst) (hphase : t.phase = s.phase)
    (hbyte : fetchByte t (t.ic + 1#8) = fetchByte s (s.ic + 1#8))
    (hexec : ∀ i, Fetches s (encode i) → Matches R (exec i (s.setIc (s.ic + 1#8))) (exec i (t.setIc (t.ic + 1#8))))
    (hfault : ∀ b,
      R (raiseIllegalInstruction (s.setIc (s.ic + 1#8)) b) (raiseIllegalInstruction (t.setIc (t.ic + 1#8)) b))
    (hscan : ∀ x : ScanDir, s.rst = false → s.phase = x.phase → Matches R (step s) (step t)) :
    Matches R (step s) (step t) := by
  cases hr : s.rst with
  | true =>
    rw [step_heldInReset hr, step_heldInReset (hrst.trans hr)]
    exact .fault _
  | false =>
    cases hp : s.phase with
    | scanFwd => exact hscan .fwd hr hp
    | scanBwd => exact hscan .bwd hr hp
    | halted =>
      rw [step_halted hr hp, step_halted (hrst.trans hr) (hphase.trans hp)]
      exact .fault _
    | faulted =>
      rw [step_faulted hr hp, step_faulted (hrst.trans hr) (hphase.trans hp)]
      exact .fault _
    | running =>
      cases hd : decode (fetchByte s (s.ic + 1#8)) with
      | known i =>
        rw [step_of_fetches ⟨hr, hp, rfl⟩ hd, step_of_fetches ⟨hrst.trans hr, hphase.trans hp, hbyte⟩ hd]
        exact hexec i ⟨hr, hp, decode_eq_known_iff.mp hd⟩
      | unknown b =>
        rw [step_of_unknown hr hp hd, step_of_unknown (hrst.trans hr) (hphase.trans hp) (hbyte ▸ hd)]
        exact .next (hfault b)

/-- Where every step of related states matches, every run of them does. -/
theorem run_matches (hstep : ∀ s t, R s t → Matches R (step s) (step t)) (n : Nat) (h : R s t) :
    Matches R (run n s) (run n t) := by
  induction n generalizing s t with
  | zero => exact .next h
  | succ n ih =>
    have hfirst := hstep s t h
    rw [run_succ, run_succ]
    generalize step s = o, step t = o' at hfirst
    cases hfirst with
    | next h => exact ih h
    | fault r => exact .fault r
    | refused r => exact .refused r

end

end Sys2Proof.Safety
end

section
/-! SUPPORT. The scan cursor outside a scan (10_state.md section 8, R29): no step reads it, and a bracket that starts a scan
writes it. -/

namespace Sys2Proof.Safety

open Sys2Proof.Machine

theorem SameButIdleSc.refl (s : State) : SameButIdleSc s s := ⟨rfl, fun _ => rfl⟩

/-- Outside a scan any value of `sc` is idle. -/
theorem sameButIdleSc_setSc {s : State} (h : ¬ (s.phase = .scanFwd ∨ s.phase = .scanBwd)) (c : Byte) :
    SameButIdleSc s (s.setSc c) :=
  ⟨rfl, fun hscan => absurd hscan h⟩

/-- A handler in RUNNING does not read `sc`. -/
theorem exec_matches_setSc (i : Instr) {s : State} (hp : s.phase = .running) (c : Byte) :
    Matches SameButIdleSc (exec i s) (exec i (s.setSc c)) := by
  have hidle {u : State} (hu : u.phase = .running) : SameButIdleSc u (u.setSc c) :=
    sameButIdleSc_setSc (by simp [hu]) c
  cases i with
  | incp | decp | inc | dec | out => exact .next (hidle hp)
  | halt => exact .next (sameButIdleSc_setSc (by simp) c)
  | inp => exact exec_inp_matches rfl fun _ => hidle hp
  | brz => exact exec_brz_matches rfl (hidle hp) (.refl _)
  | brnz => exact exec_brnz_matches rfl (hidle hp) (.refl _)

/-- From states that differ in an idle `sc`: in a scan they are the same state; else the step does not read `sc`. -/
theorem step_matches_idleSc (s t : State) (h : SameButIdleSc s t) : Matches SameButIdleSc (step s) (step t) := by
  obtain ⟨ht, hscan⟩ := h
  generalize t.sc = c at ht hscan
  obtain rfl : t = s.setSc c := ht
  by_cases hp : s.phase = .scanFwd ∨ s.phase = .scanBwd
  · rw [hscan hp]
    exact .refl SameButIdleSc.refl (step s)
  · refine step_matches rfl rfl rfl (fun i hf => ?handler) (fun b => ?fault) (fun x _ hx => ?scan)
    case handler =>
      obtain ⟨-, hrun, -⟩ := hf
      exact exec_matches_setSc i (s := s.setIc (s.ic + 1#8)) hrun c
    case fault => exact sameButIdleSc_setSc (by simp [raiseIllegalInstruction_eq]) c
    case scan => exact absurd (by cases x <;> simp [hx, ScanDir.phase]) hp

/-- Settles O43: the runs match because the steps do. -/
theorem idleScanCursorIsUnobservable : Obligations.IdleScanCursorIsUnobservable := by
  intro n s t h
  have hruns := run_matches step_matches_idleSc n h
  refine ⟨fun u hu => ?_, fun r hr => ?_⟩
  · rw [hu] at hruns
    exact hruns.exists_next
  · rw [hr] at hruns
    exact hruns.eq_fault

end Sys2Proof.Safety
end

section
/-! SUPPORT. The host's side of the state (40_dispatch.md section 3, R67): what a step reads and writes of it. -/

namespace Sys2Proof.Machine

/-- The block of `s` with another host side. -/
def State.withHost (s : State) (answers : List Byte) (nextPort : NextPort) (draws : Nat) : State :=
  { s with answers := answers, nextPort := nextPort, draws := draws }

/-- The second state is the first with the host side replaced by the given one. -/
def HostReplaced (answers : List Byte) (nextPort : NextPort) (draws : Nat) (u v : State) : Prop :=
  v = u.withHost answers nextPort draws

/-- The handlers other than IN neither read nor write the host's side. -/
theorem exec_matches_withHost {i : Instr} (hi : i ≠ .inp) (s : State) (answers : List Byte) (nextPort : NextPort)
    (draws : Nat) :
    Matches (HostReplaced answers nextPort draws) (exec i s)
      (exec i (s.withHost answers nextPort draws)) := by
  cases i with
  | incp | decp | inc | dec | out | halt => exact .next rfl
  | inp => exact absurd rfl hi
  | brz => exact exec_brz_matches rfl rfl rfl
  | brnz => exact exec_brnz_matches rfl rfl rfl

/-- A scan step neither reads nor writes the host's side. -/
theorem step_scan_matches_withHost (x : ScanDir) {s : State} (hr : s.rst = false) (hp : s.phase = x.phase)
    (answers : List Byte) (nextPort : NextPort) (draws : Nat) :
    Matches (HostReplaced answers nextPort draws) (step s) (step (s.withHost answers nextPort draws)) := by
  obtain ⟨hb, e⟩ | ⟨hb, e⟩ := step_scan_cases x hr hp
  · rw [e, step_scan_stop x (s := s.withHost answers nextPort draws) hr hp hb]
    exact .next rfl
  · rw [e, step_scan_pass x (s := s.withHost answers nextPort draws) hr hp hb]
    exact .next rfl

end Sys2Proof.Machine

namespace Sys2Proof.Safety

open Sys2Proof.Machine

/-- A step that executes no `,` is the same with another host side, which it leaves. -/
theorem step_matches_withHost {s : State} (hno : ¬ Fetches s 0x2C#8) (answers : List Byte) (nextPort : NextPort)
    (draws : Nat) :
    Matches (HostReplaced answers nextPort draws) (step s) (step (s.withHost answers nextPort draws)) := by
  refine step_matches rfl rfl rfl (fun i hf => ?handler) (fun _ => rfl)
    fun x hr hp => step_scan_matches_withHost x hr hp answers nextPort draws
  case handler =>
    have hi : i ≠ .inp := by
      rintro rfl
      exact hno hf
    exact exec_matches_withHost hi (s.setIc (s.ic + 1#8)) answers nextPort draws

/-- Settles O52: without a `,` the steps match; at a `,` each host's answer is the same byte, which both steps write. -/
theorem stepReadsOfTheHostOnlyTheByteTaken : Obligations.StepReadsOfTheHostOnlyTheByteTaken := by
  intro s answers nextPort draws
  refine ⟨fun hno => ?other, fun v hf hv hv' => ?inp⟩
  case other =>
    have hsteps := step_matches_withHost hno answers nextPort draws
    refine ⟨fun t ht => ?_, fun r hr => ?_⟩
    · rw [ht] at hsteps
      obtain ⟨t', ht', rfl⟩ := hsteps.exists_next
      exact ht'
    · rw [hr] at hsteps
      exact hsteps.eq_fault
  case inp =>
    exact ⟨_, _, step_inp_some hf hv, step_inp_some (s := s.withHost answers nextPort draws) hf hv', rfl⟩

/-- What a step does to the host's side: nothing; or it is a `,` and takes the oldest listed answer, or the free byte of an
empty list (R67). -/
theorem step_host_cases {s t : State} (h : step s = .next t) :
    (¬ Fetches s 0x2C#8 ∧ t.answers = s.answers ∧ t.draws = s.draws) ∨
      (Fetches s 0x2C#8 ∧ ∃ v, hostByte s = some v ∧ s.answers = v :: t.answers ∧ t.draws = s.draws) ∨
      (Fetches s 0x2C#8 ∧ s.answers = [] ∧ t.draws = s.draws + 1) := by
  by_cases hf : Fetches s 0x2C#8
  · obtain ⟨v, rest, hlist, hv, htake⟩ | ⟨hnil, -, hv, -⟩ | ⟨-, -, hnone⟩ := hostByte_cases s
    · cases (step_inp_some hf hv).symm.trans h
      exact .inr (.inl ⟨hf, v, hv, by simp [takeHostByte, hlist], by simp [takeHostByte, hlist]⟩)
    · cases (step_inp_some hf hv).symm.trans h
      exact .inr (.inr ⟨hf, hnil, by simp [takeHostByte, hnil]⟩)
    · cases (step_inp_none hf hnone).symm.trans h
  · obtain ⟨hr, -⟩ := step_cases h
    obtain ⟨-, -, -, -, -, -, -, -, hhost⟩ := stateWritableOnlyByItsInstructions s t h
    have hkept : ¬ (t.answers ≠ s.answers ∨ t.draws ≠ s.draws) := fun hne => by
      obtain ⟨hp, hb⟩ := hhost hne
      exact hf ⟨hr, hp, hb⟩
    exact .inl ⟨hf, by simpa only [not_or, not_not] using hkept⟩

end Sys2Proof.Safety
end

section
/-! SUPPORT. A run's result depends on the store's bytes and on the bytes taken from the host (45_halt.md R182): two blocks
that read alike, step by step with the same bytes. -/

namespace Sys2Proof.Safety

open Sys2Proof.Machine

/-- The two blocks read alike: the same bytes in tape and store, whatever lists hold them, and the same cursors, phase, trace
and pin. Nothing is said of the hosts. -/
structure SameBlock (s t : State) : Prop where
  tape : ∀ a, memRead t a = memRead s a
  store : ∀ a, fetchByte t a = fetchByte s a
  dc : t.dc = s.dc
  ic : t.ic = s.ic
  phase : t.phase = s.phase
  sc : t.sc = s.sc
  out : t.out = s.out
  rst : t.rst = s.rst

section

variable {s t : State}

theorem SameBlock.cell_eq (h : SameBlock s t) : memRead t t.dc = memRead s s.dc := by rw [h.dc, h.tape]

theorem SameBlock.next_byte (h : SameBlock s t) : fetchByte t (t.ic + 1#8) = fetchByte s (s.ic + 1#8) := by
  rw [h.ic, h.store]

theorem SameBlock.fetches_iff (h : SameBlock s t) (b : Byte) : Fetches t b ↔ Fetches s b := by
  rw [Fetches, Fetches, h.rst, h.phase, h.next_byte]

theorem SameBlock.setCell (h : SameBlock s t) {v w : Byte} (hvw : w = v) :
    SameBlock (Machine.setCell s v) (Machine.setCell t w) := by
  subst hvw
  exact { h with tape := fun a => by rw [setCell_read, setCell_read, h.dc, h.tape] }

theorem SameBlock.fetch (h : SameBlock s t) : SameBlock (s.setIc (s.ic + 1#8)) (t.setIc (t.ic + 1#8)) :=
  { h with ic := congrArg (· + 1#8) h.ic }

theorem SameBlock.takeHostByte (h : SameBlock s t) : SameBlock (Machine.takeHostByte s) (Machine.takeHostByte t) :=
  { h with }

/-- The handlers of blocks that read alike match, IN where the hosts give the same byte. -/
theorem exec_sameBlock (h : SameBlock s t) {i : Instr} (hhost : i = .inp → hostByte t = hostByte s) :
    Matches SameBlock (exec i s) (exec i t) := by
  cases i with
  | incp => exact .next { h with dc := congrArg (· + 1#8) h.dc }
  | decp => exact .next { h with dc := congrArg (· - 1#8) h.dc }
  | inc => exact .next (h.setCell (congrArg (· + 1#8) h.cell_eq))
  | dec => exact .next (h.setCell (congrArg (· - 1#8) h.cell_eq))
  | out => exact .next { h with out := congrArg₂ (fun o v => o ++ [v]) h.out h.cell_eq }
  | inp => exact exec_inp_matches (hhost rfl) fun v => h.takeHostByte.setCell rfl
  | brz => exact exec_brz_matches h.cell_eq h { h with sc := h.ic, phase := rfl }
  | brnz => exact exec_brnz_matches h.cell_eq h { h with sc := h.ic, phase := rfl }
  | halt => exact .next { h with phase := rfl }

theorem step_scan_sameBlock (x : ScanDir) (h : SameBlock s t) (hr : s.rst = false) (hp : s.phase = x.phase) :
    Matches SameBlock (step s) (step t) := by
  have hr' := h.rst.trans hr
  have hp' := h.phase.trans hp
  have hoffset : x.offsetAt t.sc 1 = x.offsetAt s.sc 1 := by rw [h.sc]
  have hbyte : fetchByte t (x.offsetAt t.sc 1) = fetchByte s (x.offsetAt s.sc 1) := by rw [hoffset, h.store]
  obtain ⟨hb, e⟩ | ⟨hb, e⟩ := step_scan_cases x hr hp
  · rw [e, step_scan_stop x hr' hp' (hbyte.trans hb)]
    exact .next { h with sc := hoffset, ic := hoffset, phase := rfl }
  · rw [e, step_scan_pass x hr' hp' (hbyte ▸ hb)]
    exact .next { h with sc := hoffset }

/-- The steps of blocks that read alike match, at a `,` where the hosts give the same byte. -/
theorem step_sameBlock (h : SameBlock s t) (hhost : Fetches s 0x2C#8 → hostByte t = hostByte s) :
    Matches SameBlock (step s) (step t) := by
  refine step_matches h.rst h.phase h.next_byte (fun i hf => exec_sameBlock h.fetch ?_)
    (fun b => { h.fetch with phase := rfl }) fun x => step_scan_sameBlock x h
  rintro rfl
  exact hhost hf

/-- Two runs from blocks that read alike go alike where a relation `P`, indexed by the steps to go, gives a `,` the same byte
from both hosts and is kept by every pair of steps. -/
theorem run_sameBlock {P : Nat → State → State → Prop}
    (hP : ∀ n s t s', SameBlock s t → P (n + 1) s t → step s = .next s' →
      (Fetches s 0x2C#8 → hostByte t = hostByte s) ∧ ∀ t', step t = .next t' → P n s' t')
    (n : Nat) {u : State} (h : SameBlock s t) (hst : P n s t) (hrun : run n s = .next u) :
    ∃ v, run n t = .next v ∧ SameBlock u v ∧ P 0 u v := by
  induction n generalizing s t with
  | zero =>
    cases hrun
    exact ⟨t, rfl, h, hst⟩
  | succ n ih =>
    rw [run_succ] at hrun
    cases hs : step s with
    | next s' =>
      rw [hs] at hrun
      obtain ⟨hhost, hkept⟩ := hP n s t s' h hst hs
      have hsteps := step_sameBlock h hhost
      rw [hs] at hsteps
      obtain ⟨t', ht, h'⟩ := hsteps.exists_next
      rw [run_next ht]
      exact ih h' (hkept t' ht) hrun
    | fault r => rw [hs] at hrun; cases hrun
    | refused r => rw [hs] at hrun; cases hrun

end

section

variable {s t : State} (h : step s = .next t)
include h

theorem exists_hostByte_of_step_inp (hf : Fetches s 0x2C#8) : ∃ v, hostByte s = some v := by
  rw [← Option.ne_none_iff_exists']
  intro hnone
  cases (step_inp_none hf hnone).symm.trans h

theorem bytesTaken_of_inp (hf : Fetches s 0x2C#8) {v : Byte} (hv : hostByte s = some v) (n : Nat) :
    bytesTaken (n + 1) s = v :: bytesTaken n t := by
  rw [bytesTaken_next h, if_pos hf, hv]
  rfl

theorem bytesTaken_of_not_inp (hno : ¬ Fetches s 0x2C#8) (n : Nat) : bytesTaken (n + 1) s = bytesTaken n t := by
  rw [bytesTaken_next h, if_neg hno]
  rfl

end

/-- At a `,` the first of a run's bytes is the one the host gives. -/
theorem hostByte_of_bytesTaken_cons {n : Nat} {s : State} (hf : Fetches s 0x2C#8) {v : Byte} {rest : List Byte}
    (hbytes : bytesTaken (n + 1) s = v :: rest) : hostByte s = some v := by
  cases hw : hostByte s with
  | some w =>
    rw [bytesTaken_of_inp (step_inp_some hf hw) hf hw] at hbytes
    exact congrArg some (List.cons.inj hbytes).1
  | none =>
    rw [bytesTaken, step_inp_none hf hw] at hbytes
    cases hbytes

/-- Where two runs from blocks that read alike take the same bytes, they go alike. -/
theorem run_sameBlock_of_bytesTaken_eq (n : Nat) {s t u : State} (h : SameBlock s t)
    (hbytes : bytesTaken n t = bytesTaken n s) (hrun : run n s = .next u) :
    ∃ v, run n t = .next v ∧ SameBlock u v := by
  have hP : ∀ n s t s', SameBlock s t → bytesTaken (n + 1) t = bytesTaken (n + 1) s → step s = .next s' →
      (Fetches s 0x2C#8 → hostByte t = hostByte s) ∧ ∀ t', step t = .next t' → bytesTaken n t' = bytesTaken n s' := by
    intro n s t s' h hbytes hs
    by_cases hf : Fetches s 0x2C#8
    · have hf' : Fetches t 0x2C#8 := (h.fetches_iff _).mpr hf
      obtain ⟨v, hv⟩ := exists_hostByte_of_step_inp hs hf
      rw [bytesTaken_of_inp hs hf hv] at hbytes
      have hv' : hostByte t = some v := hostByte_of_bytesTaken_cons hf' hbytes
      refine ⟨fun _ => hv'.trans hv.symm, fun t' ht => ?_⟩
      rw [bytesTaken_of_inp ht hf' hv'] at hbytes
      exact (List.cons.inj hbytes).2
    · refine ⟨fun hf' => absurd hf' hf, fun t' ht => ?_⟩
      rwa [bytesTaken_of_not_inp hs hf, bytesTaken_of_not_inp ht ((h.fetches_iff _).not.mpr hf)] at hbytes
  obtain ⟨v, hv, huv, -⟩ :=
    run_sameBlock (P := fun n s t => bytesTaken n t = bytesTaken n s) hP n h hbytes hrun
  exact ⟨v, hv, huv⟩

/-- Where the second host lists the bytes that the first run takes, the runs go alike, and the second leaves what it lists
after them. -/
theorem run_sameBlock_of_answers_eq (n : Nat) {s t u : State} (h : SameBlock s t) {rest : List Byte}
    (hlist : t.answers = bytesTaken n s ++ rest) (hrun : run n s = .next u) :
    ∃ v, run n t = .next v ∧ SameBlock u v ∧ v.answers = rest := by
  refine run_sameBlock (P := fun n s t => t.answers = bytesTaken n s ++ rest)
    (fun n s t s' h hlist hs => ?_) n h hlist hrun
  by_cases hf : Fetches s 0x2C#8
  · obtain ⟨v, hv⟩ := exists_hostByte_of_step_inp hs hf
    rw [bytesTaken_of_inp hs hf hv, List.cons_append] at hlist
    refine ⟨fun _ => (hostByte_of_answers_cons hlist).trans hv.symm, fun t' ht => ?_⟩
    obtain ⟨hno, -⟩ | ⟨-, w, -, htaken, -⟩ | ⟨-, hnil, -⟩ := step_host_cases ht
    · exact absurd ((h.fetches_iff _).mpr hf) hno
    · exact (List.cons.inj (htaken.symm.trans hlist)).2
    · cases hnil.symm.trans hlist
  · refine ⟨fun hf' => absurd hf' hf, fun t' ht => ?_⟩
    obtain ⟨-, hkept, -⟩ | ⟨hf', -⟩ | ⟨hf', -⟩ := step_host_cases ht
    · rw [hkept, hlist, bytesTaken_of_not_inp hs hf]
    · exact absurd ((h.fetches_iff _).mp hf') hf
    · exact absurd ((h.fetches_iff _).mp hf') hf

/-- A run does not take back a draw; and a run that draws no free byte takes its bytes from the list, in order. -/
theorem answers_of_run {n : Nat} {s u : State} (hrun : run n s = .next u) :
    s.draws ≤ u.draws ∧ (u.draws = s.draws → s.answers = bytesTaken n s ++ u.answers) := by
  induction n generalizing s with
  | zero =>
    cases hrun
    exact ⟨le_rfl, fun _ => rfl⟩
  | succ n ih =>
    rw [run_succ] at hrun
    cases hs : step s with
    | next t =>
      rw [hs] at hrun
      obtain ⟨hle, hlist⟩ := ih hrun
      obtain ⟨hno, hanswers, hdraws⟩ | ⟨hf, v, hv, hanswers, hdraws⟩ | ⟨-, -, hdraws⟩ := step_host_cases hs
      · rw [bytesTaken_of_not_inp hs hno, ← hanswers, ← hdraws]
        exact ⟨hle, hlist⟩
      · rw [bytesTaken_of_inp hs hf hv, hanswers, ← hdraws]
        exact ⟨hle, fun heq => congrArg (v :: ·) (hlist heq)⟩
      · exact ⟨by omega, fun heq => by omega⟩
    | fault r => rw [hs] at hrun; cases hrun
    | refused r => rw [hs] at hrun; cases hrun

/-- At the reset values, over stores that read alike, blocks read alike. -/
theorem sameBlock_of_atReset {s t : State} (hs : AtReset s) (ht : AtReset t) (hrs : s.rst = false) (hrt : t.rst = false)
    (hstore : ∀ a, fetchByte s a = fetchByte t a) : SameBlock s t := by
  obtain ⟨htape, hdc, hic, hp, hsc, hout, -⟩ := hs
  obtain ⟨htape', hdc', hic', hp', hsc', hout', -⟩ := ht
  exact ⟨fun a => (htape' a).trans (htape a).symm, fun a => (hstore a).symm, hdc'.trans hdc.symm, hic'.trans hic.symm,
    hp'.trans hp.symm, hsc'.trans hsc.symm, hout'.trans hout.symm, hrt.trans hrs.symm⟩

/-- Blocks that read alike have ended alike, with the same result. -/
theorem SameBlock.result {u v : State} (h : SameBlock u v) (hu : Ended u) : Ended v ∧ runResult v = runResult u :=
  ⟨h.phase.trans hu, by rw [runResult, runResult, h.dc, h.ic, h.out, funext h.tape]⟩

/-- Settles O40: the two runs start in blocks that read alike and go alike; a run that draws no free byte takes `used`,
which the second host lists too. -/
theorem resultDeterminedByProgramAndInputs : Obligations.ResultDeterminedByProgramAndInputs := by
  intro n s t u hs ht hrs hrt hstore hrun hended
  have h : SameBlock s t := sameBlock_of_atReset hs ht hrs hrt hstore
  refine ⟨fun hbytes => ?sameBytes, fun used rest rest' hlist hrest hdraws hlist' => ?sameList⟩
  case sameBytes =>
    obtain ⟨v, hv, huv⟩ := run_sameBlock_of_bytesTaken_eq n h hbytes hrun
    exact ⟨v, hv, huv.result hended⟩
  case sameList =>
    obtain ⟨-, htaken⟩ := answers_of_run hrun
    have hused : used = bytesTaken n s := by
      have hboth := hlist.symm.trans (htaken hdraws)
      rw [hrest] at hboth
      exact List.append_cancel_right hboth
    obtain ⟨v, hv, huv, hleft⟩ := run_sameBlock_of_answers_eq n h (hused ▸ hlist') hrun
    obtain ⟨hv', hresult⟩ := huv.result hended
    exact ⟨v, hv, hv', hresult, hleft⟩

end Sys2Proof.Safety
end

section
/-! SUPPORT. Two instructions in a row (70_reset_and_hazards.md R235): every instruction with an operand uses the current
`dc` and the current cell, and the five writers leave in them what they wrote. -/

namespace Sys2Proof.Safety

open Sys2Proof.Machine

/-- Writing the current cell writes no other. -/
theorem setCell_read_of_ne (s : State) (v : Byte) {a : Byte} (ha : a ≠ s.dc) : memRead (setCell s v) a = memRead s a :=
  (setCell_read s v a).trans (if_neg ha)

/-- A `[` scans exactly at a zero cell (R150). -/
theorem step_brz_phase {t : State} (hf : Fetches t 0x5B#8) :
    ∃ u, step t = .next u ∧ (u.phase = .scanFwd ↔ memRead t t.dc = 0x00#8) := by
  by_cases hz : memRead t t.dc = 0x00#8
  · exact ⟨_, step_brz_zero hf hz, iff_of_true rfl hz⟩
  · have ⟨_, hp, _⟩ := hf
    refine ⟨_, (step_of_fetches hf rfl).trans (exec_brz_nonzero hz), iff_of_false ?_ hz⟩
    simp [hp]

/-- A `]` scans exactly at a non-zero cell (R151). -/
theorem step_brnz_phase {t : State} (hf : Fetches t 0x5D#8) :
    ∃ u, step t = .next u ∧ (u.phase = .scanBwd ↔ memRead t t.dc ≠ 0x00#8) := by
  by_cases hz : memRead t t.dc = 0x00#8
  · have ⟨_, hp, _⟩ := hf
    refine ⟨_, (step_of_fetches hf rfl).trans (exec_brnz_zero hz), iff_of_false ?_ (not_not.mpr hz)⟩
    simp [hp]
  · exact ⟨_, step_brnz_nonzero hf hz, iff_of_true rfl hz⟩

/-- The next instruction, whichever it is, uses the current `dc` and the current cell. -/
theorem nextUses_of_current {t : State} {d v : Byte} (hd : t.dc = d) (hv : memRead t d = v) : NextUses t d v := by
  subst hd hv
  refine ⟨rfl, rfl, fun hf => ?inc, fun hf => ?dec, fun hf => ?out, fun w hf hw => ?inp, step_brz_phase, step_brnz_phase,
    fun hf => ⟨_, step_incp hf, rfl⟩, fun hf => ⟨_, step_decp hf, rfl⟩⟩
  case inc => exact ⟨_, step_inc hf, setCell_read_self (t.setIc _) _, fun a => setCell_read_of_ne (t.setIc _) _⟩
  case dec => exact ⟨_, step_dec hf, setCell_read_self (t.setIc _) _, fun a => setCell_read_of_ne (t.setIc _) _⟩
  case out => exact ⟨_, (step_of_fetches hf rfl).trans (exec_out _), rfl⟩
  case inp =>
    exact ⟨_, step_inp_some hf hw, setCell_read_self (takeHostByte (t.setIc _)) w,
      fun a => setCell_read_of_ne (takeHostByte (t.setIc _)) w⟩

/-- Settles O22: each of the five writers leaves what it wrote as the current cell or the current `dc`, which the next
instruction uses. -/
theorem noHazardBetweenInstructions : Obligations.NoHazardBetweenInstructions := by
  refine fun s => ⟨fun hf => ?inc, fun hf => ?dec, fun v hf hv => ?inp, fun hf => ?incp, fun hf => ?decp⟩
  case inc => exact ⟨_, step_inc hf, rfl, nextUses_of_current rfl (setCell_read_self (s.setIc _) _)⟩
  case dec => exact ⟨_, step_dec hf, rfl, nextUses_of_current rfl (setCell_read_self (s.setIc _) _)⟩
  case inp =>
    exact ⟨_, step_inp_some hf hv, rfl, nextUses_of_current rfl (setCell_read_self (takeHostByte (s.setIc _)) v)⟩
  case incp => exact ⟨_, step_incp hf, rfl, nextUses_of_current rfl rfl⟩
  case decp => exact ⟨_, step_decp hf, rfl, nextUses_of_current rfl rfl⟩

end Sys2Proof.Safety
end
